-- ==== Sys2Proof/Word.lean ====
section
/-! DEFINITION. The words and small named values of FB-SER: bytes, the host's words, line levels, the frame mode. -/

namespace Sys2Proof

/-- A byte: 8 bits, bit 7 of weight 128 (00_scope.md R10). -/
abbrev Byte := BitVec 8

/-- The host operation word OPW, bit 39 the most significant (30_encoding.md R90). -/
abbrev OpWord := BitVec 40

/-- The 9-symbol frame pattern W9: the mode bit, then eight data bits in wire order (30_encoding.md R82). -/
abbrev FrameWord := BitVec 9

/-- An electrical level; also the legal values LOW and HIGH of the clock line (10_state.md R23). -/
inductive Level where
  | low
  | high
deriving DecidableEq, Repr, Inhabited

/-- The other electrical level. -/
def Level.opposite : Level → Level
  | .low => .high
  | .high => .low

/-- The legal values ASSERTED and RELEASED of the chip-select and reset lines (10_state.md R23). -/
inductive Strobe where
  | asserted
  | released
deriving DecidableEq, Repr, Inhabited

/-- The two values of the mode operand and of the mode line: command or pixel data (00_scope.md R11). -/
inductive Mode where
  | cmd
  | data
deriving DecidableEq, Repr, Inhabited

/-- A non-empty finite list of bytes, the shape 00_scope.md R7 gives each `PAGE_CMD(b)`. -/
structure ByteList1 where
  first : Byte
  rest  : List Byte
deriving DecidableEq, Repr, Inhabited

/-- Its bytes, in order. -/
def ByteList1.toList (l : ByteList1) : List Byte := l.first :: l.rest

/-- What stands in the stream the block takes its work from: a 40-bit operation word (30_encoding.md R90), or one
wire frame as the 9-symbol pattern of the opcode table's FRAME rows (R82; DESIGN CHOICE, log 8). -/
inductive HostWord where
  | opw (w : OpWord)
  | w9  (w : FrameWord)
deriving DecidableEq, Repr

end Sys2Proof
end

