-- ==== Sys2Proof/Machine/Flags.lean ====
section
/-! DEFINITION. The block has no flag and no condition code: no operation writes one (10_state.md R29). What it has are
one-bit operands called flags (00_scope.md R11); this file says what `on` selects on a byte (20_memory.md R54). -/

namespace Sys2Proof.Machine

/-- The byte with only bit `i` set, `1 << i` (00_scope.md R10). -/
def bitMask (i : Nat) : Byte := 1#8 <<< i

/-- The byte `v` with bit `i` made `on`: `v | (1 << i)` or `v & ~(1 << i)` (20_memory.md R54). -/
def putBit (on : Bool) (v : Byte) (i : Nat) : Byte :=
  match on with
  | true => v ||| bitMask i
  | false => v &&& ~~~(bitMask i)

end Sys2Proof.Machine
end

