-- ==== Sys2Proof/Config.lean ====
section
/-! DEFINITION. What the document fixes (00_scope.md R6), the parameters it leaves open (R7) and the free values. An
`opaque` constant has no body: no proof can see its value, so a claim about it holds for every value. -/

namespace Sys2Proof.Config

/-- W, the pixel columns (00_scope.md R6). -/
def width : Nat := 128

/-- H, the pixel rows (00_scope.md R6). -/
def height : Nat := 64

/-- BANDS = ceil(H / 8) (00_scope.md R6). -/
def bands : Nat := 8

/-- BANDS * W, the bytes of the framebuffer (00_scope.md R6). -/
def fbBytes : Nat := 1024

/-- COORD_BITS (00_scope.md R7, decision D1). -/
def coordBits : Nat := 8

/-- INIT_SEQ (00_scope.md R7, decision D11): OPEN. -/
opaque initSeq : List Byte

/-- POWER_ON_SEQ (00_scope.md R7, decision D11): OPEN. -/
opaque powerOnSeq : List Byte

/-- POWER_OFF_SEQ (00_scope.md R7, decision D11): OPEN. -/
opaque powerOffSeq : List Byte

/-- PAGE_CMD (00_scope.md R7, decision D10): OPEN, a non-empty list for each band index; read for 0 to 7 only. -/
opaque pageCmd : Nat → ByteList1

/-- CS_ASSERT_LEVEL (00_scope.md R7, decision D6): OPEN; only the electrical view reads it. -/
opaque csAssertLevel : Level

/-- DC_CMD_LEVEL (00_scope.md R7, decision D6): OPEN; only the electrical view reads it. -/
opaque dcCmdLevel : Level

/-- Free value: the reset contents of FB at each linear address, "any value, each byte independently"
(10_state.md R33; log 4). -/
opaque resetFbByte : Nat → Byte

/-- Free value: the reset level of SDA, "any value" (10_state.md R33; log 5). -/
opaque resetSda : Bool

/-- Free value: the reset level of DC, "any value" (10_state.md R33; log 5). -/
opaque resetDc : Mode

/-- Free value: the bit an out-of-range pixel read returns, drawn afresh at each such read: the n-th draw
(40_framebuffer_ops.md R111, 93 U1; log 3). -/
opaque freeBit : Nat → Bool

/-- What an address that the framebuffer's cell list does not hold reads as. It is the canonical form's default only:
`State.reset` lists every free byte that differs from it (log 4). -/
def unlistedByte : Byte := 0x00#8

end Sys2Proof.Config
end

