-- ==== Sys2Proof/Machine/Operands.lean ====
section
/-! DEFINITION. The operand forms of FB-SER: the pixel address `(x, y)`, its bounds and its place in the framebuffer
(20_memory.md R50 to R55), and the closed rectangle of FILLRECT (40_framebuffer_ops.md R112). There is no other
addressing mode (R53). -/

namespace Sys2Proof.Machine

/-- A pixel access is in range exactly when x <= 127 and y <= 63 (20_memory.md R52). -/
def inRange (x y : Nat) : Bool := decide (x ≤ 127) && decide (y ≤ 63)

/-- `band(y) = 7 - (y div 8)` (20_memory.md R50), for an in-range row. -/
def band (y : Nat) : Nat := 7 - y / 8

/-- `bit(y) = 7 - (y mod 8)` (20_memory.md R50). -/
def bitPos (y : Nat) : Nat := 7 - y % 8

/-- The linear address of band `b`, column `c` (20_memory.md R55). -/
def linear (b c : Nat) : Nat := b * Config.width + c

/-- The row that bit `i` of a byte of band `b` holds (20_memory.md R51(b)). -/
def rowOf (b i : Nat) : Nat := 8 * (7 - b) + (7 - i)

/-- The integers from `lo` to `hi`, both included; none when `lo` exceeds `hi`. -/
def closedRange (lo hi : Nat) : List Nat := List.range' lo (hi + 1 - lo)

/-- The coordinate pairs of the closed rectangle, corners not swapped, not clipped (40_framebuffer_ops.md R112). The rule
gives a set, "order immaterial"; that the list goes row by row, both ascending, is the model's choice (DESIGN CHOICE,
log 14). -/
def rectPixels (x1 y1 x2 y2 : Nat) : List (Nat × Nat) :=
  (closedRange y1 y2).flatMap fun y => (closedRange x1 x2).map fun x => (x, y)

/-- How many in-range pixels the closed rectangle holds, computed over the integers as 40_framebuffer_ops.md R114(f) writes
it: `max(0, min(x2, 127) - x1 + 1) * max(0, min(y2, 63) - y1 + 1)` when x1 <= 127 and y1 <= 63, else 0. -/
def rectCount (x1 y1 x2 y2 : Nat) : Nat :=
  if x1 ≤ 127 ∧ y1 ≤ 63 then
    (max 0 (min (x2 : Int) 127 - x1 + 1) * max 0 (min (y2 : Int) 63 - y1 + 1)).toNat
  else 0

end Sys2Proof.Machine
end

