-- ==== Sys2Proof/Syntax.lean ====
section
/-! DEFINITION. The instructions of FB-SER: one constructor for each row of spec/opcode_table.json. -/

namespace Sys2Proof

/-- The eleven operations of 00_scope.md R5 and the two wire-frame rows of 30_encoding.md R82. Coordinates are naturals
that WellFormed bounds to COORD_BITS (00_scope.md R11, decision D1; log 7). -/
inductive Instr where
  /-- SETPIXEL x, y, on (40_framebuffer_ops.md R110). -/
  | setPixel (x y : Nat) (on : Bool)
  /-- GETPIXEL x, y (40_framebuffer_ops.md R111). -/
  | getPixel (x y : Nat)
  /-- FILLRECT x1, y1, x2, y2, on, flush (40_framebuffer_ops.md R112). -/
  | fillRect (x1 y1 x2 y2 : Nat) (on flush : Bool)
  /-- CLEAR flush (40_framebuffer_ops.md R113). -/
  | clear (flush : Bool)
  /-- WRITEBYTE data, mode (41_serializer_ops.md R130). -/
  | writeByte (data : Byte) (mode : Mode)
  /-- POWERON (42_device_sequences.md R150). -/
  | powerOn
  /-- POWEROFF (42_device_sequences.md R151). -/
  | powerOff
  /-- INITSEQ (42_device_sequences.md R152). -/
  | initSeq
  /-- FLUSH (42_device_sequences.md R153). -/
  | flush
  /-- RSTASSERT (41_serializer_ops.md R131). -/
  | rstAssert
  /-- RSTRELEASE (41_serializer_ops.md R132). -/
  | rstRelease
  /-- FRAME.CMD d, one byte on the wire in command mode (30_encoding.md R82). -/
  | frameCmd (data : Byte)
  /-- FRAME.DATA d, one byte on the wire in pixel-data mode (30_encoding.md R82). -/
  | frameData (data : Byte)
deriving DecidableEq, Repr

/-- The eleven operations a host issues; the wire-frame rows are "not a host operation" (opcode_table.json). -/
def Instr.isHostOperation : Instr → Bool
  | .frameCmd _ => false
  | .frameData _ => false
  | .setPixel _ _ _ | .getPixel _ _ | .fillRect _ _ _ _ _ _ | .clear _ | .writeByte _ _ | .powerOn | .powerOff
  | .initSeq | .flush | .rstAssert | .rstRelease => true

end Sys2Proof
end

