-- ==== Sys2Proof/Decode.lean ====
section
/-! DEFINITION. Encodings (30_encoding.md): the fields of the 40-bit operation word, the opcode map, the 9-symbol frame
pattern; the decoder, total on every word and refusing reserved words by name; then the encoder from the same tables. -/

namespace Sys2Proof

/-- Why a word is reserved (30_encoding.md R94). -/
inductive Reserved where
  /-- `op` is 0x0 or 0xC to 0xF. -/
  | unassignedOp
  /-- A field the operation does not use (Z among them) is not zero. -/
  | unusedFieldNotZero
deriving DecidableEq, Repr

/-- The numeric coding CMD = 0, DATA = 1 of the mode operand (30_encoding.md R82, decision D22). -/
def Mode.ofBit : Bool → Mode
  | false => .cmd
  | true => .data

/-- The same coding, the other way. -/
def Mode.toBit : Mode → Bool
  | .cmd => false
  | .data => true

/-- `op`, bits 39..36 (30_encoding.md R90). -/
def opField (w : OpWord) : BitVec 4 := w.extractLsb' 36 4

/-- `F`, bit 35: flush (30_encoding.md R90). -/
def fieldF (w : OpWord) : Bool := w.getLsbD 35

/-- `V`, bit 34: on (30_encoding.md R90). -/
def fieldV (w : OpWord) : Bool := w.getLsbD 34

/-- `M`, bit 33: mode (30_encoding.md R90). -/
def fieldM (w : OpWord) : Bool := w.getLsbD 33

/-- `Z`, bit 32: always 0 (30_encoding.md R90). -/
def fieldZ (w : OpWord) : Bool := w.getLsbD 32

/-- `A`, bits 31..24: x, x1 or data (30_encoding.md R90). -/
def fieldA (w : OpWord) : Byte := w.extractLsb' 24 8

/-- `B`, bits 23..16: y or y1 (30_encoding.md R90). -/
def fieldB (w : OpWord) : Byte := w.extractLsb' 16 8

/-- `C`, bits 15..8: x2 (30_encoding.md R90). -/
def fieldC (w : OpWord) : Byte := w.extractLsb' 8 8

/-- `D`, bits 7..0: y2 (30_encoding.md R90). -/
def fieldD (w : OpWord) : Byte := w.extractLsb' 0 8

/-- The instruction, if every unused field is zero; else the word is reserved (30_encoding.md R91, R94). -/
def ifUnusedZero (zero : Bool) (i : Instr) : Except Reserved Instr :=
  if zero then .ok i else .error .unusedFieldNotZero

/-- The opcode map: `op` selects the operation, its unused fields must be zero (30_encoding.md R92, R94). -/
def decodeFields (op : BitVec 4) (f v m z : Bool) (a b c d : Byte) : Except Reserved Instr :=
  match op.toNat with
  | 0x1 => ifUnusedZero (!f && !m && !z && c == 0 && d == 0) (.setPixel a.toNat b.toNat v)
  | 0x2 => ifUnusedZero (!f && !v && !m && !z && c == 0 && d == 0) (.getPixel a.toNat b.toNat)
  | 0x3 => ifUnusedZero (!m && !z) (.fillRect a.toNat b.toNat c.toNat d.toNat v f)
  | 0x4 => ifUnusedZero (!v && !m && !z && a == 0 && b == 0 && c == 0 && d == 0) (.clear f)
  | 0x5 => ifUnusedZero (!f && !v && !z && b == 0 && c == 0 && d == 0) (.writeByte a (Mode.ofBit m))
  | 0x6 => ifUnusedZero (!f && !v && !m && !z && a == 0 && b == 0 && c == 0 && d == 0) .powerOn
  | 0x7 => ifUnusedZero (!f && !v && !m && !z && a == 0 && b == 0 && c == 0 && d == 0) .powerOff
  | 0x8 => ifUnusedZero (!f && !v && !m && !z && a == 0 && b == 0 && c == 0 && d == 0) .initSeq
  | 0x9 => ifUnusedZero (!f && !v && !m && !z && a == 0 && b == 0 && c == 0 && d == 0) .flush
  | 0xA => ifUnusedZero (!f && !v && !m && !z && a == 0 && b == 0 && c == 0 && d == 0) .rstAssert
  | 0xB => ifUnusedZero (!f && !v && !m && !z && a == 0 && b == 0 && c == 0 && d == 0) .rstRelease
  | _ => .error .unassignedOp

/-- An operation word's instruction (30_encoding.md R90 to R95). -/
def decodeOpWord (w : OpWord) : Except Reserved Instr :=
  decodeFields (opField w) (fieldF w) (fieldV w) (fieldM w) (fieldZ w) (fieldA w) (fieldB w) (fieldC w) (fieldD w)

/-- The frame row a 9-symbol pattern selects: `0dddddddd` or `1dddddddd`, the mode first (30_encoding.md R82). -/
def decodeFrameWord (w : FrameWord) : Instr :=
  match Mode.ofBit (w.getLsbD 8) with
  | .cmd => .frameCmd (w.extractLsb' 0 8)
  | .data => .frameData (w.extractLsb' 0 8)

/-- The decoder, total on every word of the stream. -/
def decode : HostWord → Except Reserved Instr
  | .opw w => decodeOpWord w
  | .w9 w => .ok (decodeFrameWord w)

/-- The word with the given fields, bit 39 first, Z zero (30_encoding.md R90). -/
def packOpWord (op : BitVec 4) (f v m : Bool) (a b c d : Byte) : OpWord :=
  op ++ BitVec.ofBool f ++ BitVec.ofBool v ++ BitVec.ofBool m ++ BitVec.ofBool false ++ a ++ b ++ c ++ d

/-- A coordinate in its 8-bit field (30_encoding.md R91). -/
def coordField (n : Nat) : Byte := BitVec.ofNat 8 n

/-- The encoder, from the opcode map (30_encoding.md R92) and the frame patterns (R82). -/
def encode : Instr → HostWord
  | .setPixel x y on => .opw (packOpWord 0x1#4 false on false (coordField x) (coordField y) 0 0)
  | .getPixel x y => .opw (packOpWord 0x2#4 false false false (coordField x) (coordField y) 0 0)
  | .fillRect x1 y1 x2 y2 on flush =>
      .opw (packOpWord 0x3#4 flush on false (coordField x1) (coordField y1) (coordField x2) (coordField y2))
  | .clear flush => .opw (packOpWord 0x4#4 flush false false 0 0 0 0)
  | .writeByte data mode => .opw (packOpWord 0x5#4 false false mode.toBit data 0 0 0)
  | .powerOn => .opw (packOpWord 0x6#4 false false false 0 0 0 0)
  | .powerOff => .opw (packOpWord 0x7#4 false false false 0 0 0 0)
  | .initSeq => .opw (packOpWord 0x8#4 false false false 0 0 0 0)
  | .flush => .opw (packOpWord 0x9#4 false false false 0 0 0 0)
  | .rstAssert => .opw (packOpWord 0xA#4 false false false 0 0 0 0)
  | .rstRelease => .opw (packOpWord 0xB#4 false false false 0 0 0 0)
  | .frameCmd data => .w9 (BitVec.ofBool Mode.cmd.toBit ++ data)
  | .frameData data => .w9 (BitVec.ofBool Mode.data.toBit ++ data)

/-- The match and mask columns of an operation's row of the opcode map (30_encoding.md R92). -/
def opRows : List (OpWord × OpWord) :=
  [(0x1000000000#40, 0xFB0000FFFF#40), (0x2000000000#40, 0xFF0000FFFF#40), (0x3000000000#40, 0xF300000000#40),
   (0x4000000000#40, 0xF7FFFFFFFF#40), (0x5000000000#40, 0xFD00FFFFFF#40), (0x6000000000#40, 0xFFFFFFFFFF#40),
   (0x7000000000#40, 0xFFFFFFFFFF#40), (0x8000000000#40, 0xFFFFFFFFFF#40), (0x9000000000#40, 0xFFFFFFFFFF#40),
   (0xA000000000#40, 0xFFFFFFFFFF#40), (0xB000000000#40, 0xFFFFFFFFFF#40)]

/-- "A word w selects the row whose w & mask = match" (30_encoding.md R92). -/
def selectsRow (w : OpWord) (row : OpWord × OpWord) : Bool := w &&& row.2 == row.1

/-- The word of the stream whose bits, numbered as opcode_table.json numbers them, are `w`: a row of 16 bits or fewer
is the 9-symbol frame pattern, a longer one the 40-bit operation word (an operation word whose upper 24 bits are zero
would have `op` 0 and be reserved). None where the bits do not fit the format. -/
def hostWordOf (nbits w : Nat) : Option HostWord :=
  if nbits ≤ 16 then (if w < 2 ^ 9 then some (.w9 (BitVec.ofNat 9 w)) else none)
  else (if w < 2 ^ 40 then some (.opw (BitVec.ofNat 40 w)) else none)

/-- The instruction the decoder reads from the table word `w` of `nbits` bits, none where it refuses. -/
def decodeTableWord (nbits w : Nat) : Option Instr :=
  match hostWordOf nbits w with
  | none => none
  | some h =>
    match decode h with
    | .ok i => some i
    | .error _ => none

end Sys2Proof
end

