-- ==== Sys2Proof/Machine/State.lean ====
section
/-! DEFINITION. The state of FB-SER (10_state.md): FB, PINS, TRACE; the model's own record of what the host has still to
issue, has been returned, and of the free bits drawn; the reasons a step can stop; the reset state (R33). -/

namespace Sys2Proof.Machine

/-- The framebuffer's bytes by linear address (20_memory.md R55), as cells in canonical form: addresses strictly rising
and below 1024, no cell equal to `Config.unlistedByte`, which an unlisted address reads as (log 4). -/
abbrev Memory := List Host.Cell

/-- PINS: the level each of the five output lines was last driven to, as abstract values (10_state.md R23). -/
structure Pins where
  /-- the clock -/
  sck : Level
  /-- the data line: 0 is false, 1 is true -/
  sda : Bool
  /-- the chip-select -/
  cs  : Strobe
  /-- the command or data mode line -/
  dc  : Mode
  /-- the display controller's reset line -/
  rst : Strobe
deriving DecidableEq, Repr

/-- The name of an output line (10_state.md R23). -/
inductive Pin where
  | sck
  | sda
  | cs
  | dc
  | rst
deriving DecidableEq, Repr

/-- A drive: a line and a legal level of that line (10_state.md R25). -/
inductive Drive where
  | sck (l : Level)
  | sda (b : Bool)
  | cs  (a : Strobe)
  | dc  (m : Mode)
  | rst (a : Strobe)
deriving DecidableEq, Repr

/-- What a frame means to the receiver: mode and byte (30_encoding.md R82). -/
abbrev Frame := Mode × Byte

/-- The block's faults: none. "The block raises no synchronous exception; the set of exception causes is empty and there
are no cause codes" (60_exceptions.md R170). No meaning raises one, and that is safe: the spec gives every operand
value an effect. -/
inductive Fault
deriving DecidableEq, Repr

/-- Why the model refuses to give a step (the spec's `refuse`, 00_scope.md R12). -/
inductive Refusal where
  /-- An instruction that has no meaning yet, by its mnemonic. Raised by a refused arm of `exec` only; safe. -/
  | notModelled (mnemonic : String)
  /-- A reserved operation word (30_encoding.md R94). Raised by `step`; safe: nothing can be proved from it. -/
  | reservedWord (why : Reserved)
  /-- A frame that would begin with SCK high or CS asserted (41_serializer_ops.md R130, decision D9). Raised by
  `sendFrames`; safe, and unreachable from reset (10_state.md R24). -/
  | linesNotIdle
deriving DecidableEq, Repr

/-- The whole state. `fb`, `pins`, `trace` are the block's (10_state.md section 1). `issued`, `returned` and `draws` are
the model's own (logs 1, 2, 3): they stand for the host's side and for the free draws. -/
structure State where
  /-- FB -/
  fb       : Memory
  /-- PINS -/
  pins     : Pins
  /-- TRACE, every drive since reset, oldest first -/
  trace    : List Drive
  /-- the host's operation stream still to be issued, next first -/
  issued   : List HostWord
  /-- the bits GETPIXEL has returned to the host, oldest first -/
  returned : List Bool
  /-- how many free bits have been drawn -/
  draws    : Nat
deriving DecidableEq, Repr

/-- The free reset bytes of `n` addresses from `a` on, as cells in canonical form (10_state.md R33; log 4). -/
def freeCells (a : Nat) : Nat → Memory
  | 0 => []
  | n + 1 =>
    if Config.resetFbByte a = Config.unlistedByte then freeCells (a + 1) n
    else (a, Config.resetFbByte a) :: freeCells (a + 1) n

/-- The reset framebuffer: the free byte of every address (10_state.md R33; log 4). -/
def resetFb : Memory := freeCells 0 Config.fbBytes

/-- The reset lines: SCK, CS and RST as 10_state.md R33 fixes them (decision D13), SDA and DC free (log 5). -/
def resetPins : Pins :=
  { sck := .low, sda := Config.resetSda, cs := .released, dc := Config.resetDc, rst := .released }

/-- The machine right after reset (10_state.md R33, 70_reset_and_hazards.md R190), with nothing issued. -/
def State.reset : State :=
  { fb := resetFb, pins := resetPins, trace := [], issued := [], returned := [], draws := 0 }

end Sys2Proof.Machine
end

