-- ==== Sys2Proof/Machine/Ops.lean ====
section
/-! DEFINITION. The shared operations of FB-SER: reading and writing the framebuffer (20_memory.md section 3), driving
the lines (10_state.md R25), sending frames (30_encoding.md R81, R83), taking the next issued word (R27). -/

namespace Sys2Proof.Machine

/-! ### The framebuffer as cells -/

/-- The byte at a linear address (`MemRead(addr, 1)`, 00_scope.md R12). -/
def Memory.read : Memory → Nat → Byte
  | [], _ => Config.unlistedByte
  | (k, v) :: m, a => if k = a then v else Memory.read m a

/-- A cell list with the byte put in front, left out where it is the unlisted byte. -/
def Memory.cons (a : Nat) (v : Byte) (m : Memory) : Memory :=
  if v = Config.unlistedByte then m else (a, v) :: m

/-- The memory with the byte at one linear address replaced (`MemWrite(addr, 1, v)`, 00_scope.md R12). -/
def Memory.write : Memory → Nat → Byte → Memory
  | [], a, v => Memory.cons a v []
  | (k, w) :: m, a, v =>
    if a < k then Memory.cons a v ((k, w) :: m)
    else if a = k then Memory.cons a v m
    else (k, w) :: Memory.write m a v

/-- The canonical form: addresses strictly rising, all of the 1024 bytes' space, no cell holding the unlisted byte. -/
abbrev Memory.wf (m : Memory) : Prop :=
  m.Pairwise (fun p q => p.1 < q.1) ∧ ∀ p ∈ m, p.1 < Config.fbBytes ∧ p.2 ≠ Config.unlistedByte

/-- `FbRead(b, c)` (20_memory.md R53); called for b <= 7 and c <= 127 only. -/
def fbRead (m : Memory) (b c : Nat) : Byte := m.read (linear b c)

/-- `FbWrite(b, c, v)` (20_memory.md R53); called for b <= 7 and c <= 127 only. -/
def fbWrite (m : Memory) (b c : Nat) (v : Byte) : Memory := m.write (linear b c) v

/-- `PIX(x, y)`, the bit that holds an in-range pixel (10_state.md R21). -/
def pix (m : Memory) (x y : Nat) : Bool := (fbRead m (band y) x).getLsbD (bitPos y)

/-- The number of set pixels of the grid (40_framebuffer_ops.md R114(f)). -/
def setPixelCount (m : Memory) : Nat := ((rectPixels 0 0 127 63).filter fun p => pix m p.1 p.2).length

/-- The pixel write: a read-modify-write of one byte (20_memory.md R54), dropped out of range (R52). `pix_pixWrite` (Laws)
is 40_framebuffer_ops.md R114(a) and (b). -/
def pixWrite (m : Memory) (x y : Nat) (on : Bool) : Memory :=
  if inRange x y then fbWrite m (band y) x (putBit on (fbRead m (band y) x) (bitPos y)) else m

/-- The body of SETPIXEL for every pixel of a list, in list order (40_framebuffer_ops.md R112). `pix_fillPixels` (Laws)
says that the order does not matter (R114(c), (d)). -/
def fillPixels (on : Bool) (ps : List (Nat × Nat)) (m : Memory) : Memory :=
  ps.foldl (fun m p => pixWrite m p.1 p.2 on) m

/-- Every `(band, column)` in the order of R113's loop, which the rule itself calls immaterial
(40_framebuffer_ops.md R113). -/
def allBytes : List (Nat × Nat) :=
  (List.range Config.bands).flatMap fun b => (List.range Config.width).map fun c => (b, c)

/-- The framebuffer after `FbWrite(b, c, 0x00)` for every byte (40_framebuffer_ops.md R113): its canonical form lists
nothing. `zeroWrites_eq_zeroFb` (Laws) proves that the 1024 writes give it, from every framebuffer in canonical form. -/
def zeroFb : Memory := []

/-! ### The lines -/

/-- The line a drive is of. -/
def Drive.pin : Drive → Pin
  | .sck _ => .sck
  | .sda _ => .sda
  | .cs _ => .cs
  | .dc _ => .dc
  | .rst _ => .rst

/-- `PINS.p <- v`: one field written (10_state.md R25). -/
def Pins.set (p : Pins) : Drive → Pins
  | .sck l => { p with sck := l }
  | .sda b => { p with sda := b }
  | .cs a => { p with cs := a }
  | .dc m => { p with dc := m }
  | .rst a => { p with rst := a }

/-- The precondition of WRITEBYTE: SCK low and CS released (41_serializer_ops.md R130). -/
def Pins.idle (p : Pins) : Bool := p.sck == .low && p.cs == .released

/-- The electrical level of a line (10_state.md R23): CS and DC by the two level parameters (decision D6), RST active
low, SDA level 1 for a 1 bit. No operation reads it. -/
def Pins.electrical (p : Pins) : Pin → Level
  | .sck => p.sck
  | .sda => if p.sda then .high else .low
  | .cs => match p.cs with
    | .asserted => Config.csAssertLevel
    | .released => Config.csAssertLevel.opposite
  | .dc => match p.dc with
    | .cmd => Config.dcCmdLevel
    | .data => Config.dcCmdLevel.opposite
  | .rst => match p.rst with
    | .asserted => .low
    | .released => .high

/-! ### State updates -/

/-- The state with the framebuffer replaced. -/
def State.setFb (s : State) (m : Memory) : State := { s with fb := m }

/-- `Drive(p, v)`: the line takes the level and the trace gains the pair (10_state.md R25). -/
def State.drive (s : State) (d : Drive) : State := { s with pins := s.pins.set d, trace := s.trace ++ [d] }

/-- Drives performed one after the other. -/
def State.driveAll (s : State) (ds : List Drive) : State := ds.foldl State.drive s

/-- The value an operation returns to the host (10_state.md R29). -/
def State.giveBit (s : State) (b : Bool) : State := { s with returned := s.returned ++ [b] }

/-- A free bit returned to the host, the next draw counted (40_framebuffer_ops.md R111; log 3). -/
def State.giveFreeBit (s : State) : State :=
  { s with returned := s.returned ++ [Config.freeBit s.draws], draws := s.draws + 1 }

/-! ### Frames -/

/-- Drives 2 + 3k to 4 + 3k of a frame: the bit while the clock is low, then the clock high, then low
(30_encoding.md R81, 41_serializer_ops.md R130). -/
def bitDrives (b : Bool) : List Drive := [.sda b, .sck .high, .sck .low]

/-- `Frame(m, d)`: the 27 drives of one byte (30_encoding.md R81, 41_serializer_ops.md R130). -/
def frameDrives (f : Frame) : List Drive :=
  [.dc f.1, .cs .asserted] ++ [7, 6, 5, 4, 3, 2, 1, 0].flatMap (fun i => bitDrives (f.2.getLsbD i)) ++ [.cs .released]

/-- Frames sent one after the other, each complete before the next (30_encoding.md R83). If there is one to send, SCK
must be low and CS released at entry (41_serializer_ops.md R130, decision D9); every frame restores both, so one check
serves them all (`sendFrames_cons` in Laws; log 12). -/
def sendFrames (fs : List Frame) (s : State) : Host.Outcome State Fault Refusal :=
  if s.pins.idle || fs.isEmpty then .next (s.driveAll (fs.flatMap frameDrives)) else .refused .linesNotIdle

/-- A command subsequence: every byte of the list in CMD mode, in list order (30_encoding.md R83, decision D11). -/
def cmdFrames (cs : List Byte) : List Frame := cs.map fun c => (Mode.cmd, c)

/-- The frames of one band of a flush: its set-page command, then its 128 bytes, column 0 first
(42_device_sequences.md R153, decision D10). -/
def bandFrames (page : Nat → ByteList1) (m : Memory) (b : Nat) : List Frame :=
  cmdFrames (page b).toList ++ (List.range Config.width).map fun c => (Mode.data, fbRead m b c)

/-- The frames of a flush, band 0 first (42_device_sequences.md R153, decision D10). -/
def flushFrames (page : Nat → ByteList1) (m : Memory) : List Frame :=
  (List.range Config.bands).flatMap (bandFrames page m)

/-- FLUSH: the whole framebuffer sent (42_device_sequences.md R153). -/
def flushFb (s : State) : Host.Outcome State Fault Refusal := sendFrames (flushFrames Config.pageCmd s.fb) s

/-- One FLUSH if the `flush` operand asks for it (40_framebuffer_ops.md R112, R113, decision D5). -/
def flushIf (flush : Bool) (s : State) : Host.Outcome State Fault Refusal :=
  match flush with
  | true => flushFb s
  | false => .next s

/-! ### The host's stream -/

/-- The next issued word and the state in which its operation runs: the position in the stream advances by one
(10_state.md R27). None when the host has issued nothing. -/
def takeIssued (s : State) : Option (HostWord × State) :=
  match s.issued with
  | [] => none
  | w :: rest => some (w, { s with issued := rest })

/-- The state with a word placed where the next step takes it. -/
def State.issueFirst (s : State) (w : HostWord) : State := { s with issued := w :: s.issued }

end Sys2Proof.Machine
end

