-- ==== Sys2Proof/Machine/Framebuffer.lean ====
section
/-! DEFINITION. The framebuffer operations (40_framebuffer_ops.md): SETPIXEL, GETPIXEL, FILLRECT, CLEAR. -/

namespace Sys2Proof.Machine

/-- SETPIXEL x, y, on: the pixel write, a no-op out of range (40_framebuffer_ops.md R110). -/
def execSetPixel (x y : Nat) (on : Bool) (s : State) : Host.Outcome State Fault Refusal :=
  .next (s.setFb (pixWrite s.fb x y on))

/-- GETPIXEL x, y: the pixel's bit returned; out of range a free bit, and nothing of FB, PINS or TRACE changes
(40_framebuffer_ops.md R111, decision D3). -/
def execGetPixel (x y : Nat) (s : State) : Host.Outcome State Fault Refusal :=
  if inRange x y then .next (s.giveBit (pix s.fb x y)) else .next s.giveFreeBit

/-- FILLRECT x1, y1, x2, y2, on, flush: the body of SETPIXEL for every pair of the closed rectangle, then one FLUSH if
asked (40_framebuffer_ops.md R112, decisions D4, D5). -/
def execFillRect (x1 y1 x2 y2 : Nat) (on flush : Bool) (s : State) : Host.Outcome State Fault Refusal :=
  flushIf flush (s.setFb (fillPixels on (rectPixels x1 y1 x2 y2) s.fb))

/-- CLEAR flush: every byte zero, then one FLUSH if asked (40_framebuffer_ops.md R113, decision D5). -/
def execClear (flush : Bool) (s : State) : Host.Outcome State Fault Refusal :=
  flushIf flush (s.setFb zeroFb)

end Sys2Proof.Machine
end

