-- ==== Sys2Proof/Machine/Sequences.lean ====
section
/-! DEFINITION. The device sequence operations (42_device_sequences.md): POWERON, POWEROFF, INITSEQ, FLUSH. -/

namespace Sys2Proof.Machine

/-- POWERON: WRITEBYTE(c, CMD) for each c of POWER_ON_SEQ (42_device_sequences.md R150). -/
def execPowerOn (s : State) : Host.Outcome State Fault Refusal := sendFrames (cmdFrames Config.powerOnSeq) s

/-- POWEROFF: WRITEBYTE(c, CMD) for each c of POWER_OFF_SEQ (42_device_sequences.md R151). -/
def execPowerOff (s : State) : Host.Outcome State Fault Refusal := sendFrames (cmdFrames Config.powerOffSeq) s

/-- INITSEQ: WRITEBYTE(c, CMD) for each c of INIT_SEQ (42_device_sequences.md R152). -/
def execInitSeq (s : State) : Host.Outcome State Fault Refusal := sendFrames (cmdFrames Config.initSeq) s

/-- FLUSH: per band the set-page command and the band's 128 bytes (42_device_sequences.md R153). -/
def execFlush (s : State) : Host.Outcome State Fault Refusal := flushFb s

end Sys2Proof.Machine
end

