-- ==== Sys2Proof/Machine/Serializer.lean ====
section
/-! DEFINITION. The serializer operations (41_serializer_ops.md): WRITEBYTE, RSTASSERT, RSTRELEASE; and the two wire
frames of the opcode table (30_encoding.md R82). -/

namespace Sys2Proof.Machine

/-- WRITEBYTE data, mode: one frame (41_serializer_ops.md R130). -/
def execWriteByte (data : Byte) (mode : Mode) (s : State) : Host.Outcome State Fault Refusal :=
  sendFrames [(mode, data)] s

/-- RSTASSERT: one drive of the reset line, no precondition (41_serializer_ops.md R131). -/
def execRstAssert (s : State) : Host.Outcome State Fault Refusal :=
  .next (s.drive (.rst .asserted))

/-- RSTRELEASE: one drive of the reset line, no precondition (41_serializer_ops.md R132). -/
def execRstRelease (s : State) : Host.Outcome State Fault Refusal :=
  .next (s.drive (.rst .released))

/-- FRAME.CMD data: the 27 drives of the command frame (30_encoding.md R81, R82; log 8). -/
def execFrameCmd (data : Byte) (s : State) : Host.Outcome State Fault Refusal :=
  sendFrames [(.cmd, data)] s

/-- FRAME.DATA data: the 27 drives of the pixel-data frame (30_encoding.md R81, R82; log 8). -/
def execFrameData (data : Byte) (s : State) : Host.Outcome State Fault Refusal :=
  sendFrames [(.data, data)] s

end Sys2Proof.Machine
end

