-- ==== Sys2Proof/Machine/Dispatch.lean ====
section
/-! DEFINITION. The dispatch: one arm for each constructor of Instr. -/

namespace Sys2Proof.Machine

/-- What an instruction does to a state. -/
def exec (i : Instr) (s : State) : Host.Outcome State Fault Refusal :=
  match i with
  | .setPixel x y on => Sys2Proof.Machine.execSetPixel x y on s
  | .getPixel x y => Sys2Proof.Machine.execGetPixel x y s
  | .fillRect x1 y1 x2 y2 on flush => Sys2Proof.Machine.execFillRect x1 y1 x2 y2 on flush s
  | .clear flush => Sys2Proof.Machine.execClear flush s
  | .writeByte data mode => Sys2Proof.Machine.execWriteByte data mode s
  | .powerOn => Sys2Proof.Machine.execPowerOn s
  | .powerOff => Sys2Proof.Machine.execPowerOff s
  | .initSeq => Sys2Proof.Machine.execInitSeq s
  | .flush => Sys2Proof.Machine.execFlush s
  | .rstAssert => Sys2Proof.Machine.execRstAssert s
  | .rstRelease => Sys2Proof.Machine.execRstRelease s
  | .frameCmd data => Sys2Proof.Machine.execFrameCmd data s
  | .frameData data => Sys2Proof.Machine.execFrameData data s

end Sys2Proof.Machine
end

