-- ==== Sys2Proof/Machine/Step.lean ====
section
/-! DEFINITION. One step: the next issued word is taken, decoded and performed whole (10_state.md R27, R28). -/

namespace Sys2Proof.Machine

/-- One step. With nothing issued nothing changes (10_state.md R23: "no field changes by itself"; DEDUCED, log 1). A
reserved word is refused (30_encoding.md R94). -/
def step (s : State) : Host.Outcome State Fault Refusal :=
  match takeIssued s with
  | none => .next s
  | some (w, s1) =>
    match decode w with
    | .ok i => exec i s1
    | .error why => .refused (.reservedWord why)

/-- The state with the table word placed where `step` takes its next instruction; bits that no format holds become the
all-zero word, which is reserved (30_encoding.md R94). -/
def State.withFetchWord (s : State) (nbits w : Nat) : State :=
  match hostWordOf nbits w with
  | some h => s.issueFirst h
  | none => s.issueFirst (.opw 0#40)

end Sys2Proof.Machine
end

