-- ==== Sys2Proof/Machine/Pseudo.lean ====
section
/-! DEFINITION. The pseudo-operations of 30_encoding.md R97: each expands to operations and has no word of its own. -/

namespace Sys2Proof.Machine

/-- The rows of 30_encoding.md R97. -/
inductive Pseudo where
  /-- `CLEAR` with no operand, `clear()`. -/
  | clearDefault
  /-- `BRINGUP` (70_reset_and_hazards.md R191, decision D14). -/
  | bringup
  /-- `RSTPULSE`. -/
  | rstPulse
  /-- `SENDCMD c1, ..., cn`. -/
  | sendCmd (cs : List Byte)
deriving DecidableEq, Repr

/-- The operations a pseudo-operation stands for, in order (30_encoding.md R97). -/
def Pseudo.expand : Pseudo → List Instr
  | .clearDefault => [.clear true]
  | .bringup => [.rstAssert, .rstRelease, .initSeq, .clear true]
  | .rstPulse => [.rstAssert, .rstRelease]
  | .sendCmd cs => cs.map fun c => .writeByte c .cmd

/-- Operations performed one after the other, each whole before the next (10_state.md R27). -/
def performAll : List Instr → State → Host.Outcome State Fault Refusal
  | [], s => .next s
  | i :: is, s =>
    match exec i s with
    | .next t => performAll is t
    | .fault r => .fault r
    | .refused r => .refused r

end Sys2Proof.Machine
end

