-- ==== Sys2Proof/Machine/Receiver.lean ====
section
/-! DEFINITION. What a listener on the five lines reads: `Wave` (10_state.md R25), `Frames` (41_serializer_ops.md R133)
and the ghost `SENT` (10_state.md R32). Functions of the trace alone; nothing in the block reads them. -/

namespace Sys2Proof.Machine

/-- `Wave` as 10_state.md R25 defines it: the PINS record after each drive, starting from `p`; a drive that repeats a level
gives a second equal record (log 10). -/
def waveFrom (p : Pins) : List Drive → List Pins
  | [] => []
  | d :: ds => p.set d :: waveFrom (p.set d) ds

/-- `Wave(TRACE)`, from the reset PINS (10_state.md R25). -/
def wave (tr : List Drive) : List Pins := waveFrom resetPins tr

/-- The records that differ from the one before them, the lines being `p` before the first. -/
def changesFrom (p : Pins) : List Pins → List Pins
  | [] => []
  | q :: qs => if q = p then changesFrom p qs else q :: changesFrom q qs

/-- The electrical view of a trace as decision D18 words it: the records of `wave` without those a repeated level gives
(log 10). -/
def waveChanges (tr : List Drive) : List Pins := changesFrom resetPins (wave tr)

/-- The byte of eight sampled bits, first bit most significant (41_serializer_ops.md R133). -/
def byteOfSamples (bits : List Bool) : Byte :=
  BitVec.ofNat 8 (bits.foldl (fun n b => 2 * n + b.toNat) 0)

/-- The frame a closed bracket holds, if it has exactly eight samples and one mode (41_serializer_ops.md R133). -/
def closeBracket (samples : List (Bool × Mode)) : List Frame :=
  match samples with
  | [] => []
  | (_, m) :: _ =>
    if samples.length = 8 ∧ ∀ p ∈ samples, p.2 = m then [(m, byteOfSamples (samples.map Prod.fst))] else []

/-- What a drive that takes the lines from `p` to `q` does to the receiver's bracket: a change of CS to asserted starts
an empty list, a change of SCK to high while CS is asserted samples SDA and DC (41_serializer_ops.md R133). -/
def sample (p q : Pins) (bracket : Option (List (Bool × Mode))) : Option (List (Bool × Mode)) :=
  if p.cs = .released ∧ q.cs = .asserted then some []
  else if p.cs = .asserted ∧ q.cs = .released then none
  else if p.sck = .low ∧ q.sck = .high ∧ q.cs = .asserted then bracket.map (· ++ [(q.sda, q.dc)])
  else bracket

/-- The frame a drive closes: at a change of CS to released (41_serializer_ops.md R133). -/
def closes (p q : Pins) (bracket : Option (List (Bool × Mode))) : List Frame :=
  if p.cs = .asserted ∧ q.cs = .released then (bracket.map closeBracket).getD [] else []

/-- The receiver walking the records of a wave from the lines `p`, a bracket perhaps open. -/
def receive (p : Pins) (bracket : Option (List (Bool × Mode))) : List Pins → List Frame
  | [] => []
  | q :: qs => closes p q bracket ++ receive q (sample p q bracket) qs

/-- The frames a receiver extracts from drives that start from the lines `p`, no bracket open. -/
def framesFrom (p : Pins) (ds : List Drive) : List Frame := receive p none (waveFrom p ds)

/-- `Frames(TRACE)`: the walk of `Wave(TRACE)` (41_serializer_ops.md R133). -/
def frames (tr : List Drive) : List Frame := framesFrom resetPins tr

/-- The 128 DATA bytes at the head of a frame list, and what follows them; none if a CMD frame or the end comes first. -/
def takeData : Nat → List Frame → Option (List Byte × List Frame)
  | 0, fs => some ([], fs)
  | n + 1, (.data, d) :: fs => (takeData n fs).map fun r => (d :: r.1, r.2)
  | _ + 1, _ => none

/-- What follows a command subsequence at the head of a frame list, if it stands there. -/
def dropCmds : List Byte → List Frame → Option (List Frame)
  | [], fs => some fs
  | c :: cs, (.cmd, d) :: fs => if c = d then dropCmds cs fs else none
  | _ :: _, _ => none

/-- The DATA bytes of a FLUSH that stands at the head of a frame list, bands in order (42_device_sequences.md R153). -/
def takeFlush (page : Nat → ByteList1) : List Nat → List Frame → Option (List Byte)
  | [], _ => some []
  | b :: bs, fs =>
    match dropCmds (page b).toList fs with
    | none => none
    | some fs1 =>
      match takeData Config.width fs1 with
      | none => none
      | some (ds, fs2) => (takeFlush page bs fs2).map (ds ++ ·)

/-- The bytes of the last place in a frame list where a whole FLUSH stands. -/
def lastFlush (page : Nat → ByteList1) : List Frame → Option (List Byte)
  | [] => none
  | f :: fs =>
    match lastFlush page fs with
    | some bytes => some bytes
    | none => takeFlush page (List.range Config.bands) (f :: fs)

/-- The ghost `SENT`: the 1024 DATA bytes of the most recent FLUSH in TRACE, by band and column; none before the first
(10_state.md R32; log 11). -/
def sent (tr : List Drive) : Option (List Byte) := lastFlush Config.pageCmd (frames tr)

/-- The frames an operation sends, from the framebuffer it starts with (30_encoding.md R83, 40_framebuffer_ops.md R112,
R113). -/
def framesSent (m : Memory) : Instr → List Frame
  | .setPixel _ _ _ => []
  | .getPixel _ _ => []
  | .fillRect x1 y1 x2 y2 on flush =>
      if flush then flushFrames Config.pageCmd (fillPixels on (rectPixels x1 y1 x2 y2) m) else []
  | .clear flush => if flush then flushFrames Config.pageCmd zeroFb else []
  | .writeByte data mode => [(mode, data)]
  | .powerOn => cmdFrames Config.powerOnSeq
  | .powerOff => cmdFrames Config.powerOffSeq
  | .initSeq => cmdFrames Config.initSeq
  | .flush => flushFrames Config.pageCmd m
  | .rstAssert => []
  | .rstRelease => []
  | .frameCmd data => [(.cmd, data)]
  | .frameData data => [(.data, data)]

/-- What every drive of the block obeys, the lines being `p` before it (41_serializer_ops.md R134, 70 R197): SCK changes
only while CS is asserted; SDA is driven only inside a bracket and while SCK is low; DC and RST are driven only outside
a bracket; CS changes, and only while SCK is low. -/
def busRule (p : Pins) : Drive → Bool
  | .sck l => p.cs == .asserted && l != p.sck
  | .sda _ => p.cs == .asserted && p.sck == .low
  | .cs a => p.sck == .low && a != p.cs
  | .dc _ => p.cs == .released
  | .rst _ => p.cs == .released

/-- Every drive of a list obeys `busRule`, the lines being `p` before the first. -/
def busLegal (p : Pins) : List Drive → Bool
  | [] => true
  | d :: ds => busRule p d && busLegal (p.set d) ds

/-- FB arranged as `sent` arranges it: 1024 bytes, band 0 first, column 0 first. -/
def fbImage (m : Memory) : List Byte := allBytes.map fun p => fbRead m p.1 p.2

end Sys2Proof.Machine
end

