-- ==== Sys2Proof/Machine/SmallStep.lean ====
section
/-! DEFINITION. The small-step view (10_state.md R28, decision D20): an operation as the fixed sequence of its
framebuffer accesses and drives, one a step, in the order its rule gives; for FILLRECT's
pixel writes, whose order R112 leaves free, in the order of `rectPixels` (DESIGN CHOICE, log 14). The big-step `exec` is normative. -/

namespace Sys2Proof.Machine

/-- One event of an operation (70_reset_and_hazards.md R201 counts these three kinds). -/
inductive Event where
  | read  (b c : Nat)
  | write (b c : Nat) (v : Byte)
  | drive (d : Drive)
deriving DecidableEq, Repr

/-- What an event does: a read changes nothing (20_memory.md R59). -/
def Event.apply (s : State) : Event → State
  | .read _ _ => s
  | .write b c v => s.setFb (fbWrite s.fb b c v)
  | .drive d => s.drive d

/-- The events of one pixel write: a byte read, then a byte written; none out of range (20_memory.md R54, R52). -/
def pixEvents (m : Memory) (x y : Nat) (on : Bool) : List Event :=
  if inRange x y then
    [.read (band y) x, .write (band y) x (putBit on (fbRead m (band y) x) (bitPos y))]
  else []

/-- The events of the pixel writes of a list, in list order, each on the framebuffer the earlier ones leave. FILLRECT calls
it on `rectPixels`, whose order is the model's choice (DESIGN CHOICE, log 14). -/
def fillEvents (on : Bool) : List (Nat × Nat) → Memory → List Event
  | [], _ => []
  | (x, y) :: ps, m => pixEvents m x y on ++ fillEvents on ps (pixWrite m x y on)

/-- The drives of frames, as events. -/
def frameEvents (fs : List Frame) : List Event := (fs.flatMap frameDrives).map .drive

/-- The events of a flush: per band the command frames, then each byte read and sent (42_device_sequences.md R153). -/
def flushEvents (page : Nat → ByteList1) (m : Memory) : List Event :=
  (List.range Config.bands).flatMap fun b =>
    frameEvents (cmdFrames (page b).toList) ++
      (List.range Config.width).flatMap fun c => .read b c :: frameEvents [(.data, fbRead m b c)]

/-- The events of the flush an operand asks for. -/
def flushIfEvents (flush : Bool) (m : Memory) : List Event :=
  match flush with
  | true => flushEvents Config.pageCmd m
  | false => []

/-- The event sequence of an operation that starts with the framebuffer `m`. -/
def events (m : Memory) : Instr → List Event
  | .setPixel x y on => pixEvents m x y on
  | .getPixel x y => if inRange x y then [.read (band y) x] else []
  | .fillRect x1 y1 x2 y2 on flush =>
      fillEvents on (rectPixels x1 y1 x2 y2) m ++ flushIfEvents flush (fillPixels on (rectPixels x1 y1 x2 y2) m)
  | .clear flush => allBytes.map (fun p => .write p.1 p.2 0x00#8) ++ flushIfEvents flush zeroFb
  | .writeByte data mode => frameEvents [(mode, data)]
  | .powerOn => frameEvents (cmdFrames Config.powerOnSeq)
  | .powerOff => frameEvents (cmdFrames Config.powerOffSeq)
  | .initSeq => frameEvents (cmdFrames Config.initSeq)
  | .flush => flushEvents Config.pageCmd m
  | .rstAssert => [.drive (.rst .asserted)]
  | .rstRelease => [.drive (.rst .released)]
  | .frameCmd data => frameEvents [(.cmd, data)]
  | .frameData data => frameEvents [(.data, data)]

/-- An operation in progress: the block, and the events still to happen (10_state.md R28). -/
structure InProgress where
  block     : State
  remaining : List Event
deriving DecidableEq, Repr

/-- An operation begun. -/
def InProgress.start (i : Instr) (s : State) : InProgress := { block := s, remaining := events s.fb i }

/-- One small step: the next event happens; none left, nothing happens. -/
def InProgress.small (q : InProgress) : InProgress :=
  match q.remaining with
  | [] => q
  | e :: es => { block := e.apply q.block, remaining := es }

/-- So many small steps. -/
def InProgress.smalls : Nat → InProgress → InProgress
  | 0, q => q
  | n + 1, q => q.small.smalls n

/-- How many events of each kind a list holds: reads, writes, drives (70_reset_and_hazards.md R201). -/
def countEvents : List Event → Nat × Nat × Nat
  | [] => (0, 0, 0)
  | .read _ _ :: es => ((countEvents es).1 + 1, (countEvents es).2.1, (countEvents es).2.2)
  | .write _ _ _ :: es => ((countEvents es).1, (countEvents es).2.1 + 1, (countEvents es).2.2)
  | .drive _ :: es => ((countEvents es).1, (countEvents es).2.1, (countEvents es).2.2 + 1)

end Sys2Proof.Machine
end

