-- ==== Sys2Proof/Safety.lean ====
section
/-! DEFINITION. What holds between operations on this hardware, and which states a host's run can reach. -/

namespace Sys2Proof.Machine

/-- A drive that is not of the reset line. -/
def Drive.inFrame (d : Drive) : Bool := decide (d.pin ≠ .rst)

/-- "Delete the RST drives from TRACE; what remains is a concatenation of whole 27-drive frames" (41_serializer_ops.md
R134). -/
def WholeFrames (tr : List Drive) : Prop :=
  ∃ fs : List Frame, tr.filter Drive.inFrame = fs.flatMap frameDrives

/-- The invariant between operations. -/
structure Inv (s : State) : Prop where
  /-- FB keeps its shape: the canonical form of 1024 bytes (10_state.md R20, R22). -/
  fbWf : s.fb.wf
  /-- SCK is low and CS released (10_state.md R24). -/
  linesIdle : s.pins.idle = true
  /-- PINS is the level each line was last driven to (10_state.md R23, R25). -/
  lastDriven : s.pins = s.trace.foldl Pins.set resetPins
  /-- The trace less RST is whole frames (41_serializer_ops.md R134). -/
  wholeFrames : WholeFrames s.trace
  /-- Every drive obeyed the rules of the bus (41_serializer_ops.md R134). -/
  legal : busLegal resetPins s.trace = true

/-- The states a run reaches: reset with any stream the host issues, and what a step answers. -/
inductive Reachable : State → Prop where
  | reset (ws : List HostWord) : Reachable { State.reset with issued := ws }
  | step (s t : State) (hs : Reachable s) (h : step s = .next t) : Reachable t

end Sys2Proof.Machine
end

