-- ==== Sys2Proof/WellFormed.lean ====
section
/-! DEFINITION. Which instruction terms an encoding can carry: every coordinate is an unsigned number of COORD_BITS
bits (00_scope.md R11); 0 to 255, the out-of-range ones included (30_encoding.md R93). -/

namespace Sys2Proof

/-- A coordinate of COORD_BITS bits (00_scope.md R11). -/
def coordFits (n : Nat) : Bool := decide (n < 2 ^ Config.coordBits)

/-- The instruction's operands fit their fields. Bytes, flags and modes fit by their types. -/
def Instr.wellFormed : Instr → Bool
  | .setPixel x y _ => coordFits x && coordFits y
  | .getPixel x y => coordFits x && coordFits y
  | .fillRect x1 y1 x2 y2 _ _ => coordFits x1 && coordFits y1 && coordFits x2 && coordFits y2
  | .clear _ => true
  | .writeByte _ _ => true
  | .powerOn => true
  | .powerOff => true
  | .initSeq => true
  | .flush => true
  | .rstAssert => true
  | .rstRelease => true
  | .frameCmd _ => true
  | .frameData _ => true

end Sys2Proof
end

