-- ==== Sys2Proof/Certificates/Slice0/Obligations.lean ====
section
/-! DEFINITION. What this model claims of FB-SER, for the provers. Where a clause rests on a decision D<n> of the spec
(spec/92_eei_decisions.md) or on a log entry of this model, the docstring says so. -/

open Sys2Proof Sys2Proof.Machine

/-! ### The framebuffer -/

/-- 20_memory.md R50: pixel (x, y) is bit `7 - y mod 8` of the byte of band `7 - y div 8`, column x. -/
def Obligations.PixelIsItsBandBit : Prop :=
  ∀ (m : Memory) (x y : Nat), x ≤ 127 → y ≤ 63 →
    pix m x y = (fbRead m (7 - y / 8) x).getLsbD (7 - y % 8)

/-- 20_memory.md R51(a) to (c), marked derived there: band and bit lie in 0 to 7, and `8*(7-b) + (7-i)` is a two-sided
inverse. -/
def Obligations.PixelMapIsBijective : Prop :=
  (∀ y, y ≤ 63 → band y ≤ 7 ∧ bitPos y ≤ 7 ∧ 8 * (7 - band y) + (7 - bitPos y) = y) ∧
  (∀ b i, b ≤ 7 → i ≤ 7 →
    8 * (7 - b) + (7 - i) ≤ 63 ∧ band (8 * (7 - b) + (7 - i)) = b ∧ bitPos (8 * (7 - b) + (7 - i)) = i)

/-- 20_memory.md R51(f), marked derived there: the bytes of a column, band 7 most significant, hold pixel (c, y) at bit
`63 - y`. -/
def Obligations.ColumnWordHoldsRowsReversed : Prop :=
  ∀ (m : Memory) (c y : Nat), c ≤ 127 → y ≤ 63 →
    (fbRead m 7 c ++ fbRead m 6 c ++ fbRead m 5 c ++ fbRead m 4 c ++ fbRead m 3 c ++ fbRead m 2 c ++ fbRead m 1 c ++
      fbRead m 0 c).getLsbD (63 - y) = pix m c y

/-- 20_memory.md R54: an in-range SETPIXEL completes; it reads one byte and writes it with the one bit made `on`, the
other seven bits and every other byte as before, and nothing else of the state changes. Every access of the framebuffer
is of one byte: a pixel write is one read and one write, CLEAR is 1024 byte writes, FLUSH 1024 byte reads. -/
def Obligations.SetPixelReadModifiesOneByte : Prop :=
  (∀ (s : State) (x y : Nat) (on : Bool), s.fb.wf → x ≤ 127 → y ≤ 63 →
    ∃ t, exec (.setPixel x y on) s = .next t ∧
      fbRead t.fb (7 - y / 8) x =
        (if on then fbRead s.fb (7 - y / 8) x ||| (1#8 <<< (7 - y % 8))
          else fbRead s.fb (7 - y / 8) x &&& ~~~(1#8 <<< (7 - y % 8))) ∧
      (fbRead t.fb (7 - y / 8) x).getLsbD (7 - y % 8) = on ∧
      (∀ j, j ≤ 7 → j ≠ 7 - y % 8 →
        (fbRead t.fb (7 - y / 8) x).getLsbD j = (fbRead s.fb (7 - y / 8) x).getLsbD j) ∧
      (∀ b c, b ≤ 7 → c ≤ 127 → ¬(b = 7 - y / 8 ∧ c = x) → fbRead t.fb b c = fbRead s.fb b c) ∧
      t.pins = s.pins ∧ t.trace = s.trace ∧ t.issued = s.issued ∧ t.returned = s.returned ∧ t.draws = s.draws ∧
      countEvents (events s.fb (.setPixel x y on)) = (1, 1, 0)) ∧
  (∀ m, countEvents (events m (.clear false)) = (0, 1024, 0)) ∧
  (∀ m, (countEvents (events m .flush)).1 = 1024 ∧ (countEvents (events m .flush)).2.1 = 0)

/-- 20_memory.md R52: an access is in range exactly when x <= 127 and y <= 63, and out of range a write changes nothing
at all. 40_framebuffer_ops.md R111 (decision D3): a read changes nothing but what the host is given, some bit; that it is
appended to `returned` is log 2, that a draw is counted log 3. R112 (decision D4): a rectangle wholly out of range writes
nothing. -/
def Obligations.OutOfRangeAccessIsDropped : Prop :=
  (∀ x y, inRange x y = true ↔ x ≤ 127 ∧ y ≤ 63) ∧
  (∀ (s : State) (x y : Nat), 128 ≤ x ∨ 64 ≤ y →
    (∀ on, exec (.setPixel x y on) s = .next s) ∧
    (∃ b, exec (.getPixel x y) s = .next { s with returned := s.returned ++ [b], draws := s.draws + 1 })) ∧
  (∀ (s : State) (x1 y1 x2 y2 : Nat) (on : Bool), 128 ≤ x1 ∨ 64 ≤ y1 →
    exec (.fillRect x1 y1 x2 y2 on false) s = .next s)

/-- 40_framebuffer_ops.md R111 (GETPIXEL is the spec's decision D3): in range it completes, returns the stored bit, and
changes nothing else. -/
def Obligations.GetPixelReturnsTheStoredBit : Prop :=
  ∀ (s : State) (x y : Nat), x ≤ 127 → y ≤ 63 →
    exec (.getPixel x y) s =
      .next { s with returned := s.returned ++ [(fbRead s.fb (7 - y / 8) x).getLsbD (7 - y % 8)] }

/-- 40_framebuffer_ops.md R114(a), (b), marked derived there: after SETPIXEL the pixel reads as set, every other in-range
pixel reads as before (GETPIXEL is decision D3). -/
def Obligations.SetThenGetRoundTrip : Prop :=
  ∀ (s : State) (x y x' y' : Nat) (on : Bool), s.fb.wf → x ≤ 127 → y ≤ 63 → x' ≤ 127 → y' ≤ 63 →
    ∃ t, performAll [.setPixel x y on, .getPixel x' y'] s = .next t ∧
      t.returned = s.returned ++ [if x' = x ∧ y' = y then on else pix s.fb x' y'] ∧
      t.pins = s.pins ∧ t.trace = s.trace

/-- 40_framebuffer_ops.md R114(c), marked derived there: SETPIXELs to different pixels commute; of two to the same pixel
the later value stays. -/
def Obligations.SetPixelsCommute : Prop :=
  ∀ (s : State) (x y x' y' : Nat) (v v' : Bool), s.fb.wf →
    ((x, y) ≠ (x', y') →
      performAll [.setPixel x y v, .setPixel x' y' v'] s = performAll [.setPixel x' y' v', .setPixel x y v] s) ∧
    performAll [.setPixel x y v, .setPixel x y v'] s = exec (.setPixel x y v') s

/-- 20_memory.md R59 (its idempotence sentences): SETPIXEL with the value a pixel has changes nothing; FILLRECT and CLEAR
without flush done twice leave what they left once. -/
def Obligations.FramebufferWritesAreIdempotent : Prop :=
  (∀ (s : State) (x y : Nat), s.fb.wf → x ≤ 127 → y ≤ 63 →
    exec (.setPixel x y (pix s.fb x y)) s = .next s) ∧
  (∀ (s : State) (x1 y1 x2 y2 : Nat) (on : Bool), s.fb.wf →
    performAll [.fillRect x1 y1 x2 y2 on false, .fillRect x1 y1 x2 y2 on false] s =
      exec (.fillRect x1 y1 x2 y2 on false) s) ∧
  (∀ s : State, s.fb.wf → performAll [.clear false, .clear false] s = exec (.clear false) s)

/-- 40_framebuffer_ops.md R112, no flush (both ends included and clipping per pixel are decision D4): FILLRECT completes;
every in-range pixel of the closed rectangle is `on`, every other pixel and every byte without one is as before, and
nothing else of the state changes. -/
def Obligations.FillRectFillsTheClosedRectangle : Prop :=
  ∀ (s : State) (x1 y1 x2 y2 : Nat) (on : Bool), s.fb.wf →
    ∃ t, exec (.fillRect x1 y1 x2 y2 on false) s = .next t ∧
      (∀ x y, x ≤ 127 → y ≤ 63 →
        pix t.fb x y = if (x1 ≤ x ∧ x ≤ x2) ∧ (y1 ≤ y ∧ y ≤ y2) then on else pix s.fb x y) ∧
      (∀ b c, b ≤ 7 → c ≤ 127 →
        (∀ y, y ≤ 63 → 7 - y / 8 = b → ¬((x1 ≤ c ∧ c ≤ x2) ∧ (y1 ≤ y ∧ y ≤ y2))) →
        fbRead t.fb b c = fbRead s.fb b c) ∧
      t.fb.wf ∧ t.pins = s.pins ∧ t.trace = s.trace ∧ t.issued = s.issued ∧ t.returned = s.returned ∧
      t.draws = s.draws

/-- 40_framebuffer_ops.md R114(d), R112(d), marked derived or decisions D4, D5 there: FILLRECT is any sequence of SETPIXELs
whose in-range pixels are those of the rectangle, followed by FLUSH if `flush` is 1. -/
def Obligations.FillRectIsSetPixelsInAnyOrder : Prop :=
  ∀ (s : State) (x1 y1 x2 y2 : Nat) (on flush : Bool) (ps : List (Nat × Nat)), s.fb.wf →
    (∀ x y, x ≤ 127 → y ≤ 63 → ((x, y) ∈ ps ↔ (x1 ≤ x ∧ x ≤ x2) ∧ (y1 ≤ y ∧ y ≤ y2))) →
    performAll ((ps.map fun p => .setPixel p.1 p.2 on) ++ if flush then [.flush] else []) s =
      exec (.fillRect x1 y1 x2 y2 on flush) s

/-- 40_framebuffer_ops.md R112(b) (decisions D4, D5): with a lower bound above an upper one no pixel is written, and the
flush, if asked for, still happens. -/
def Obligations.EmptyRectangleStillFlushes : Prop :=
  ∀ (s : State) (x1 y1 x2 y2 : Nat) (on : Bool), x2 < x1 ∨ y2 < y1 →
    exec (.fillRect x1 y1 x2 y2 on false) s = .next s ∧
    exec (.fillRect x1 y1 x2 y2 on true) s = exec .flush s

/-- 40_framebuffer_ops.md R113, no flush (that nothing is driven then is decision D5): CLEAR completes, every byte is
zero, every pixel clear, and nothing else of the state changes. -/
def Obligations.ClearZeroesEveryByte : Prop :=
  ∀ s : State, s.fb.wf →
    ∃ t, exec (.clear false) s = .next t ∧
      (∀ b c, b ≤ 7 → c ≤ 127 → fbRead t.fb b c = 0x00#8) ∧
      (∀ x y, x ≤ 127 → y ≤ 63 → pix t.fb x y = false) ∧
      t.fb.wf ∧ t.pins = s.pins ∧ t.trace = s.trace ∧ t.issued = s.issued ∧ t.returned = s.returned ∧
      t.draws = s.draws

/-- 40_framebuffer_ops.md R114(e), marked derived there, and a corner case of R112: CLEAR is FILLRECT of the whole grid
with 0, and of the whole coordinate range, flush or none. -/
def Obligations.ClearIsAFullFill : Prop :=
  ∀ (s : State) (f : Bool), s.fb.wf →
    exec (.clear f) s = exec (.fillRect 0 0 127 63 false f) s ∧
    exec (.clear f) s = exec (.fillRect 0 0 255 255 false f) s

/-- 40_framebuffer_ops.md R112(e), R113 (decision D5): with flush, FILLRECT and CLEAR are their writes and then one
FLUSH, which reads the framebuffer they leave; from idle lines they complete. -/
def Obligations.FlushOperandFlushesAfterTheWrites : Prop :=
  ∀ s : State,
    (∀ (x1 y1 x2 y2 : Nat) (on : Bool),
      exec (.fillRect x1 y1 x2 y2 on true) s = performAll [.fillRect x1 y1 x2 y2 on false, .flush] s ∧
      (s.pins.idle = true → ∃ t, exec (.fillRect x1 y1 x2 y2 on true) s = .next t)) ∧
    exec (.clear true) s = performAll [.clear false, .flush] s ∧
    (s.pins.idle = true → ∃ t, exec (.clear true) s = .next t)

/-- 40_framebuffer_ops.md R114(f), marked derived there: how many pixels are set after CLEAR 0 and a filling FILLRECT. -/
def Obligations.FilledRectangleCountsItsPixels : Prop :=
  ∀ (s : State) (x1 y1 x2 y2 : Nat), s.fb.wf →
    ∃ t, performAll [.clear false, .fillRect x1 y1 x2 y2 true false] s = .next t ∧
      setPixelCount t.fb = rectCount x1 y1 x2 y2

/-! ### The serializer -/

/-- 41_serializer_ops.md R130, 30_encoding.md R81 (the last clock fall is decision D7, the idle levels D8, the
precondition D9, repeats recorded D18): from idle lines WRITEBYTE completes, appends these 27 drives, leaves the lines
as stated, and changes nothing else. -/
def Obligations.WriteByteDrivesItsFrame : Prop :=
  ∀ (s : State) (d : Byte) (m : Mode), s.pins.sck = .low → s.pins.cs = .released →
    exec (.writeByte d m) s =
      .next { s with
        pins := { sck := .low, sda := d.getLsbD 0, cs := .released, dc := m, rst := s.pins.rst }
        trace := s.trace ++
          [.dc m, .cs .asserted,
           .sda (d.getLsbD 7), .sck .high, .sck .low, .sda (d.getLsbD 6), .sck .high, .sck .low,
           .sda (d.getLsbD 5), .sck .high, .sck .low, .sda (d.getLsbD 4), .sck .high, .sck .low,
           .sda (d.getLsbD 3), .sck .high, .sck .low, .sda (d.getLsbD 2), .sck .high, .sck .low,
           .sda (d.getLsbD 1), .sck .high, .sck .low, .sda (d.getLsbD 0), .sck .high, .sck .low,
           .cs .released] }

/-- 30_encoding.md R82, R81 and the table's FRAME rows ("27 drives of 30_encoding.md rule R81"; that a model may run one
as a word of its own is log 8): from idle lines each frame row completes and does what WRITEBYTE of that mode does. -/
def Obligations.FrameRowsPutOneFrameOnTheWire : Prop :=
  ∀ (s : State) (d : Byte), s.pins.sck = .low → s.pins.cs = .released →
    (∃ t, exec (.frameCmd d) s = .next t ∧ exec (.writeByte d .cmd) s = .next t ∧
      t.trace = s.trace ++ frameDrives (.cmd, d) ∧ t.fb = s.fb) ∧
    (∃ t, exec (.frameData d) s = .next t ∧ exec (.writeByte d .data) s = .next t ∧
      t.trace = s.trace ++ frameDrives (.data, d) ∧ t.fb = s.fb)

/-- 41_serializer_ops.md R130 (decision D9), 93 U4: an operation is refused exactly when it has a frame to send and SCK is
high or CS asserted, and then by that name, as a whole (log 12). -/
def Obligations.RefusedExactlyWhenLinesAreBusy : Prop :=
  ∀ (i : Instr) (s : State) (r : Refusal),
    exec i s = .refused r ↔
      r = .linesNotIdle ∧ ¬(s.pins.sck = .low ∧ s.pins.cs = .released) ∧ framesSent s.fb i ≠ []

/-- 41_serializer_ops.md R131, R132 (the two operations are decision D12): each drives RST once, whatever its level, and
changes nothing else. -/
def Obligations.ResetLineOperationsDriveRst : Prop :=
  ∀ s : State,
    exec .rstAssert s =
      .next { s with pins := { s.pins with rst := .asserted }, trace := s.trace ++ [.rst .asserted] } ∧
    exec .rstRelease s =
      .next { s with pins := { s.pins with rst := .released }, trace := s.trace ++ [.rst .released] }

/-- 10_state.md R23 ("ASSERTED is electrically low"), 41_serializer_ops.md R131, R132 (decision D12): the reset line is
active low. -/
def Obligations.ResetLineIsActiveLow : Prop :=
  ∀ s t : State,
    (exec .rstAssert s = .next t → t.pins.electrical .rst = .low) ∧
    (exec .rstRelease s = .next t → t.pins.electrical .rst = .high)

/-- 41_serializer_ops.md R133, marked derived there: from the 27 drives of a frame the receiver extracts that frame and no
other, for all 512. -/
def Obligations.ReceiverReadsEachFrame : Prop :=
  ∀ (p : Pins) (m : Mode) (d : Byte), p.sck = .low → p.cs = .released → framesFrom p (frameDrives (m, d)) = [(m, d)]

/-- 41_serializer_ops.md R134, 30_encoding.md R83, marked derived there: what the receiver has read grows by exactly the
frames the operation sends. -/
def Obligations.ReceiverReadsExactlyTheFramesSent : Prop :=
  ∀ (i : Instr) (s t : State), Inv s → exec i s = .next t →
    frames t.trace = frames s.trace ++ framesSent s.fb i

/-- 10_state.md R25, R34, marked derived there: the trace only grows, by 27 drives a frame and one for a reset-line
operation, and the lines are what those drives leave. -/
def Obligations.TraceGrowsByTheOperationsDrives : Prop :=
  ∀ (i : Instr) (s t : State), exec i s = .next t →
    ∃ ds, t.trace = s.trace ++ ds ∧ t.pins = ds.foldl Pins.set s.pins ∧
      ds.length = 27 * (framesSent s.fb i).length + (if i = .rstAssert ∨ i = .rstRelease then 1 else 0)

/-- 10_state.md R25: `Wave(TRACE)` has one record a drive, repeated levels kept (the model's reading, log 10), and its last
record is the present PINS. -/
def Obligations.WaveEndsAtThePins : Prop :=
  ∀ s : State, Inv s → s.trace ≠ [] →
    (wave s.trace).length = s.trace.length ∧ (wave s.trace).getLast? = some s.pins

/-- 41_serializer_ops.md R133 and decision D18 ("the receiver's reading is defined on either view"; the two views are
log 10): no record of the electrical view equals the one before it, it is a sublist of the wave and ends in the same lines,
and the receiver extracts the same frames from it. -/
def Obligations.ReceiverReadsTheSameOnEitherView : Prop :=
  ∀ tr : List Drive,
    (resetPins :: waveChanges tr).IsChain (fun p q => p ≠ q) ∧
    (waveChanges tr).Sublist (wave tr) ∧
    (resetPins :: waveChanges tr).getLast? = (resetPins :: wave tr).getLast? ∧
    receive resetPins none (waveChanges tr) = frames tr

/-- 10_state.md R23, R34 and 95 Part 4 property 10: no operation but RSTASSERT and RSTRELEASE drives RST. -/
def Obligations.OnlyResetLineOperationsDriveRst : Prop :=
  ∀ (i : Instr) (s t : State), i ≠ .rstAssert → i ≠ .rstRelease → exec i s = .next t →
    t.pins.rst = s.pins.rst ∧ t.trace.filter (fun d => d.pin = .rst) = s.trace.filter (fun d => d.pin = .rst)

/-- 41_serializer_ops.md R134 and 70 R197, marked derived there: from idle lines every drive an operation adds obeys the
rules of the bus (SCK changes inside a bracket only, SDA is driven while SCK is low, DC and RST outside a bracket). -/
def Obligations.EveryDriveObeysTheBusRules : Prop :=
  ∀ (i : Instr) (s t : State) (ds : List Drive), s.pins.sck = .low → s.pins.cs = .released → exec i s = .next t →
    t.trace = s.trace ++ ds → busLegal s.pins ds = true

/-! ### Device sequences -/

/-- 42_device_sequences.md R150, R151, R152 (every byte in CMD mode is decision D11): from idle lines POWERON, POWEROFF
and INITSEQ complete; each sends its own list as command frames in list order, leaves SDA at bit 0 of the last byte and
DC at CMD (an empty list changes nothing), and changes nothing else. -/
def Obligations.CommandSequencesSendTheirLists : Prop :=
  ∀ p ∈ [(Instr.powerOn, Config.powerOnSeq), (Instr.powerOff, Config.powerOffSeq), (Instr.initSeq, Config.initSeq)],
    ∀ s : State, s.pins.sck = .low → s.pins.cs = .released →
      exec p.1 s =
        .next { s with
          pins := match p.2.getLast? with
            | none => s.pins
            | some c => { sck := .low, sda := c.getLsbD 0, cs := .released, dc := .cmd, rst := s.pins.rst }
          trace := s.trace ++ p.2.flatMap fun c => frameDrives (.cmd, c) }

/-- 42_device_sequences.md, the pseudocode of the four composite operations, and 30_encoding.md R97 for SENDCMD
(decisions D9, D10, D11): each of them is its WRITEBYTEs performed one after the other, from every state, one in which
the first is refused included; with an empty list nothing happens. -/
def Obligations.SequencesAreWriteBytesPerformed : Prop :=
  ∀ s : State,
    exec .powerOn s = performAll (Pseudo.sendCmd Config.powerOnSeq).expand s ∧
    exec .powerOff s = performAll (Pseudo.sendCmd Config.powerOffSeq).expand s ∧
    exec .initSeq s = performAll (Pseudo.sendCmd Config.initSeq).expand s ∧
    exec .flush s = performAll
      ((List.range 8).flatMap fun b =>
        (Pseudo.sendCmd (Config.pageCmd b).toList).expand ++
          (List.range 128).map fun c => .writeByte (fbRead s.fb b c) .data) s

/-- 42_device_sequences.md R153 (the orders and the page per band are decision D10): from idle lines FLUSH completes; for
each band, 0 first, it sends the band's set-page command as CMD frames and its 128 bytes, column 0 first, as DATA frames:
27 * (P + 1024) drives; DC is left DATA, SDA bit 0 of the last byte; nothing else changes. -/
def Obligations.FlushSendsEveryBand : Prop :=
  ∀ s : State, s.pins.sck = .low → s.pins.cs = .released →
    ∃ t, exec .flush s = .next t ∧
      t.trace = s.trace ++
        (List.range 8).flatMap (fun b =>
          (Config.pageCmd b).toList.flatMap (fun c => frameDrives (.cmd, c)) ++
          (List.range 128).flatMap (fun c => frameDrives (.data, fbRead s.fb b c))) ∧
      t.trace.length =
        s.trace.length + 27 * (((List.range 8).map fun b => (Config.pageCmd b).toList.length).sum + 1024) ∧
      t.pins = { sck := .low, sda := (fbRead s.fb 7 127).getLsbD 0, cs := .released, dc := .data, rst := s.pins.rst } ∧
      t.fb = s.fb ∧ t.issued = s.issued ∧ t.returned = s.returned ∧ t.draws = s.draws

/-- 95_test_vectors.md 2.4, derived there from R153 (decision D10): with L command bytes for every band, the byte of band
b, column c is frame number (L + 128) * b + L + c of a flush, whatever PAGE_CMD is. -/
def Obligations.FlushFramePositions : Prop :=
  (∀ m, framesSent m .flush = flushFrames Config.pageCmd m) ∧
  ∀ (page : Nat → ByteList1) (m : Memory) (L b c : Nat), (∀ k, k ≤ 7 → (page k).toList.length = L) → b ≤ 7 →
    c ≤ 127 → (flushFrames page m)[(L + 128) * b + L + c]? = some (.data, fbRead m b c)

/-- 20_memory.md R56(e), marked derived there (the orders are decision D10): the data bits of a flush leave in this order
of pixels. -/
def Obligations.FlushBitsLeaveInPixelOrder : Prop :=
  ∀ m : Memory,
    ((framesSent m .flush).filter fun f => f.1 = .data).flatMap
        (fun f => [7, 6, 5, 4, 3, 2, 1, 0].map fun i => f.2.getLsbD i) =
      (List.range 8).flatMap fun b => (List.range 128).flatMap fun c =>
        [7, 6, 5, 4, 3, 2, 1, 0].map fun i => pix m c (8 * (7 - b) + (7 - i))

/-- 42_device_sequences.md R154, marked derived there: how many frames an operation sends, their modes, and the command
bytes among them do not depend on the framebuffer. -/
def Obligations.FrameStreamShapeIgnoresFramebuffer : Prop :=
  ∀ (i : Instr) (m m' : Memory),
    (framesSent m i).map Prod.fst = (framesSent m' i).map Prod.fst ∧
    (framesSent m i).filter (fun f => f.1 = .cmd) = (framesSent m' i).filter (fun f => f.1 = .cmd)

/-- 20_memory.md R62, 10_state.md R32, marked derived there: after a FLUSH, and after FILLRECT or CLEAR with flush, the
1024 data bytes of the most recent FLUSH in TRACE are the framebuffer (how SENT reads the trace is log 11). -/
def Obligations.SentIsTheFramebufferAfterAFlush : Prop :=
  ∀ (i : Instr) (s t : State), Inv s → exec i s = .next t →
    (i = .flush ∨ i = .clear true ∨ ∃ x1 y1 x2 y2 on, i = .fillRect x1 y1 x2 y2 on true) →
    sent t.trace = some (fbImage t.fb)

/-- 20_memory.md R61, 70_reset_and_hazards.md R196: an operation that sends no frame leaves what the display was last
sent, whatever it does to the framebuffer. -/
def Obligations.DisplayIsStaleUntilFlushed : Prop :=
  ∀ (i : Instr) (s t : State), Inv s → exec i s = .next t → framesSent s.fb i = [] → sent t.trace = sent s.trace

/-! ### The machine -/

/-- 60_exceptions.md R173: "Every operation completes normally for all operand values", from lines between operations
(10_state.md R24); and none ends in a fault, from any state. -/
def Obligations.EveryOperationCompletes : Prop :=
  (∀ (i : Instr) (s : State), s.pins.sck = .low → s.pins.cs = .released → ∃ t, exec i s = .next t) ∧
  (∀ (i : Instr) (s : State) (r : Fault), exec i s ≠ .fault r)

/-- 10_state.md R22 and R34, marked derived there: only SETPIXEL, FILLRECT and CLEAR write the framebuffer. -/
def Obligations.OnlyThreeOperationsWriteTheFramebuffer : Prop :=
  ∀ (i : Instr) (s t : State), exec i s = .next t →
    (∀ x y on, i ≠ .setPixel x y on) → (∀ x1 y1 x2 y2 on f, i ≠ .fillRect x1 y1 x2 y2 on f) → (∀ f, i ≠ .clear f) →
    t.fb = s.fb

/-- 10_state.md R27, R29 (R29 is decision D19): no operation changes the host's stream, and only GETPIXEL returns a value,
one bit. -/
def Obligations.OnlyGetPixelReturnsAValue : Prop :=
  ∀ (i : Instr) (s t : State), exec i s = .next t →
    t.issued = s.issued ∧
    ((∀ x y, i ≠ .getPixel x y) → t.returned = s.returned ∧ t.draws = s.draws) ∧
    (∀ x y, i = .getPixel x y → ∃ b, t.returned = s.returned ++ [b])

/-- 10_state.md R27: a step takes the next issued word and performs the instruction it decodes to, the stream one word
shorter; a word placed by `withFetchWord` is the one taken. With nothing issued nothing changes (log 1). -/
def Obligations.StepPerformsTheDecodedInstruction : Prop :=
  (∀ (s : State) (w : HostWord) (ws : List HostWord) (i : Instr), s.issued = w :: ws → decode w = .ok i →
    step s = exec i { s with issued := ws }) ∧
  (∀ (s : State) (nbits w : Nat) (i : Instr), decodeTableWord nbits w = some i →
    step (s.withFetchWord nbits w) = exec i s) ∧
  (∀ s : State, s.issued = [] → step s = .next s)

/-- 30_encoding.md R94 (decision D17): a reserved word is refused, by the reason it is reserved. -/
def Obligations.ReservedWordsAreRefused : Prop :=
  ∀ (s : State) (w : HostWord) (ws : List HostWord) (why : Reserved), s.issued = w :: ws → decode w = .error why →
    step s = .refused (.reservedWord why)

/-- 10_state.md R24, R20, R22, R23, R25, 41_serializer_ops.md R134: every step keeps the invariant between operations:
canonical framebuffer, idle lines, PINS the last levels driven, TRACE whole frames that obeyed the bus rules. -/
def Obligations.StepKeepsTheInvariant : Prop :=
  ∀ s t : State, Inv s → step s = .next t → Inv t

/-- 10_state.md R33: the reset state has the invariant. -/
def Obligations.ResetHasTheInvariant : Prop := Inv State.reset

/-- 10_state.md R24, 41_serializer_ops.md R130: in every state a host's run reaches the invariant holds, and no step is
refused for busy lines. -/
def Obligations.ReachableStatesNeverRefuseForBusyLines : Prop :=
  ∀ s : State, Reachable s → Inv s ∧ step s ≠ .refused .linesNotIdle

/-- 10_state.md R33, 70_reset_and_hazards.md R190 (decision D13): SCK low, CS and RST released, TRACE empty; each byte of
FB is the free byte of its address (log 4). -/
def Obligations.ResetState : Prop :=
  State.reset.pins.sck = .low ∧ State.reset.pins.cs = .released ∧ State.reset.pins.rst = .released ∧
  State.reset.trace = [] ∧
  ∀ b c, b ≤ 7 → c ≤ 127 → fbRead State.reset.fb b c = Config.resetFbByte (b * 128 + c)

/-- 70_reset_and_hazards.md R192, marked derived there (the order of BRINGUP is decision D14), from every state with the
invariant: BRINGUP completes; FB is zero, the lines are as stated, the trace gains two RST drives and then the frames of
INIT_SEQ and of one flush of zeros, and the display has been sent FB (SENT as log 11 reads it). -/
def Obligations.BringupLeavesADeterminedState : Prop :=
  ∀ s : State, Inv s →
    ∃ t, performAll Pseudo.bringup.expand s = .next t ∧
      (∀ b c, b ≤ 7 → c ≤ 127 → fbRead t.fb b c = 0x00#8) ∧
      t.pins = { sck := .low, sda := false, cs := .released, dc := .data, rst := .released } ∧
      (∃ ds, t.trace = s.trace ++ [.rst .asserted, .rst .released] ++ ds ∧
        ds.length = 27 * (Config.initSeq.length +
          ((List.range 8).map fun b => (Config.pageCmd b).toList.length).sum + 1024)) ∧
      frames t.trace = frames s.trace ++ Config.initSeq.map (fun c => (Mode.cmd, c)) ++
        (List.range 8).flatMap (fun b => (Config.pageCmd b).toList.map (fun c => (Mode.cmd, c)) ++
          List.replicate 128 (Mode.data, 0x00#8)) ∧
      sent t.trace = some (fbImage t.fb)

/-- 10_state.md R28 (decision D20): run event by event, an operation ends with the framebuffer, lines and trace that
`exec` gives, and at every point its trace is a prefix of the final one. -/
def Obligations.SmallStepsAgreeWithBigStep : Prop :=
  ∀ (i : Instr) (s t : State), s.fb.wf → exec i s = .next t →
    ((InProgress.start i s).smalls (events s.fb i).length).remaining = [] ∧
    ((InProgress.start i s).smalls (events s.fb i).length).block.fb = t.fb ∧
    ((InProgress.start i s).smalls (events s.fb i).length).block.pins = t.pins ∧
    ((InProgress.start i s).smalls (events s.fb i).length).block.trace = t.trace ∧
    ∀ n, ((InProgress.start i s).smalls n).block.trace <+: t.trace

/-- 70_reset_and_hazards.md R201, marked derived there: how many byte reads, byte writes and drives each operation makes;
P is the total length of the set-page commands. -/
def Obligations.EventCounts : Prop :=
  ∀ (m : Memory) (P : Nat), P = ((List.range 8).map fun b => (Config.pageCmd b).toList.length).sum →
    (∀ x y on, countEvents (events m (.setPixel x y on)) = if x ≤ 127 ∧ y ≤ 63 then (1, 1, 0) else (0, 0, 0)) ∧
    (∀ x y, countEvents (events m (.getPixel x y)) = if x ≤ 127 ∧ y ≤ 63 then (1, 0, 0) else (0, 0, 0)) ∧
    (∀ x1 y1 x2 y2 on n, n = ((rectPixels x1 y1 x2 y2).filter fun p => inRange p.1 p.2).length →
      countEvents (events m (.fillRect x1 y1 x2 y2 on false)) = (n, n, 0) ∧
      countEvents (events m (.fillRect x1 y1 x2 y2 on true)) = (n + 1024, n, 27 * (P + 1024))) ∧
    countEvents (events m (.clear false)) = (0, 1024, 0) ∧
    countEvents (events m (.clear true)) = (1024, 1024, 27 * (P + 1024)) ∧
    (∀ d md, countEvents (events m (.writeByte d md)) = (0, 0, 27)) ∧
    countEvents (events m .rstAssert) = (0, 0, 1) ∧
    countEvents (events m .rstRelease) = (0, 0, 1) ∧
    countEvents (events m .powerOn) = (0, 0, 27 * Config.powerOnSeq.length) ∧
    countEvents (events m .powerOff) = (0, 0, 27 * Config.powerOffSeq.length) ∧
    countEvents (events m .initSeq) = (0, 0, 27 * Config.initSeq.length) ∧
    countEvents (events m .flush) = (1024, 0, 27 * (P + 1024))

/-! ### Encodings -/

/-- 95_test_vectors.md 2.5 and 30_encoding.md R92, R94 (decisions D16, D17), R82: words written out from the tables decode
to their instructions, reserved ones to none. That the 16-bit table word 0x1A5 is read as a 9-symbol pattern is the
model's choice (log 8). -/
def Obligations.TableWordsDecode : Prop :=
  decodeTableWord 40 0x14050A0000 = some (.setPixel 5 10 true) ∧
  decodeTableWord 40 0x20050B0000 = some (.getPixel 5 11) ∧
  decodeTableWord 40 0x34783C8C46 = some (.fillRect 120 60 140 70 true false) ∧
  decodeTableWord 40 0x4800000000 = some (.clear true) ∧
  decodeTableWord 40 0x52A5000000 = some (.writeByte 0xA5 .data) ∧
  decodeTableWord 40 0x9000000000 = some .flush ∧
  decodeTableWord 40 0xA000000000 = some .rstAssert ∧
  decodeTableWord 16 0x1A5 = some (.frameData 0xA5) ∧
  decodeTableWord 40 0x1C050A0000 = none ∧
  decodeTableWord 40 0x1500000000 = none ∧
  decodeTableWord 40 0xC000000000 = none

/-- 30_encoding.md R90 to R92, R82 (decision D16): the encoding of every well-formed instruction decodes to it, every
operand at every value. -/
def Obligations.DecodeAfterEncode : Prop :=
  ∀ i : Instr, i.wellFormed = true → decode (encode i) = .ok i

/-- 30_encoding.md R92, R94 (decisions D16, D17): a word that decodes is the encoding of its instruction, which is well
formed: each instruction has one word. -/
def Obligations.EncodeAfterDecode : Prop :=
  ∀ (w : HostWord) (i : Instr), decode w = .ok i → encode i = w ∧ i.wellFormed = true

/-- 30_encoding.md R92, R94 (decisions D16, D17): an operation word decodes exactly when it selects a row of the opcode
map by match and mask, and at most one row. -/
def Obligations.WordDecodesExactlyWhenItSelectsARow : Prop :=
  (∀ w : OpWord, (∃ i, decodeOpWord w = .ok i) ↔ ∃ row ∈ opRows, selectsRow w row = true) ∧
  (∀ (w : OpWord) (j k : Nat) (r q : OpWord × OpWord), opRows[j]? = some r → opRows[k]? = some q →
    selectsRow w r = true → selectsRow w q = true → j = k)

/-- 30_encoding.md R93: a word carries every coordinate value 0 to 255; the out-of-range ones are legal words whose
operation is the no-op of 20_memory.md R52. -/
def Obligations.OutOfRangeCoordinatesAreLegalWords : Prop :=
  ∀ (x y : Nat) (on : Bool) (s : State) (ws : List HostWord), x ≤ 255 → y ≤ 255 → 128 ≤ x ∨ 64 ≤ y →
    decode (encode (.setPixel x y on)) = .ok (.setPixel x y on) ∧
    decode (encode (.getPixel x y)) = .ok (.getPixel x y) ∧
    (s.issued = encode (.setPixel x y on) :: ws → step s = .next { s with issued := ws })
end

