-- ==== Sys2Proof/Laws/Decode.lean ====
section
/-! SUPPORT. The fields of a packed word, and a word packed from its fields. -/

namespace Sys2Proof

section fields
variable (op : BitVec 4) (f v m : Bool) (a b c d : Byte)

/-- The bits of a packed word, field by field (30_encoding.md R90). -/
theorem getLsbD_pack (i : Nat) : (packOpWord op f v m a b c d).getLsbD i =
    if i < 8 then d.getLsbD i else if i < 16 then c.getLsbD (i - 8) else if i < 24 then b.getLsbD (i - 16)
    else if i < 32 then a.getLsbD (i - 24) else if i < 33 then false else if i < 34 then decide (i = 33) && m
    else if i < 35 then decide (i = 34) && v else if i < 36 then decide (i = 35) && f else op.getLsbD (i - 36) := by
  show BitVec.getLsbD (w := 4 + 1 + 1 + 1 + 1 + 8 + 8 + 8 + 8) (op ++ BitVec.ofBool f ++ BitVec.ofBool v ++
    BitVec.ofBool m ++ BitVec.ofBool false ++ a ++ b ++ c ++ d) i = _
  simp only [BitVec.getLsbD_append, BitVec.getLsbD_ofBool, Nat.sub_sub]
  by_cases h1 : i < 8
  · simp [h1]
  by_cases h2 : i < 16
  · simp [h1, h2, show i - 8 < 8 by omega]
  by_cases h3 : i < 24
  · simp [h1, h2, h3, show ¬(i - 8 < 8) by omega, show i - 16 < 8 by omega]
  by_cases h4 : i < 32
  · simp [h1, h2, h3, h4, show ¬(i - 8 < 8) by omega, show ¬(i - 16 < 8) by omega, show i - 24 < 8 by omega]
  by_cases h5 : i < 33
  · obtain rfl : i = 32 := by omega
    simp
  by_cases h6 : i < 34
  · obtain rfl : i = 33 := by omega
    simp
  by_cases h7 : i < 35
  · obtain rfl : i = 34 := by omega
    simp
  by_cases h8 : i < 36
  · obtain rfl : i = 35 := by omega
    simp
  simp [h1, h2, h3, h4, h5, h6, h7, h8, show ¬(i - 8 < 8) by omega, show ¬(i - 16 < 8) by omega,
    show ¬(i - 24 < 8) by omega, show ¬(i - 32 < 1) by omega, show i - 33 ≠ 0 by omega, show i - 34 ≠ 0 by omega,
    show i - 35 ≠ 0 by omega]

@[simp] theorem opField_pack : opField (packOpWord op f v m a b c d) = op := by
  refine BitVec.eq_of_getLsbD_eq fun i hi => ?_
  rw [opField, BitVec.getLsbD_extractLsb', getLsbD_pack, Nat.add_sub_cancel_left]
  simp [show ¬(36 + i < 8) by omega, show ¬(36 + i < 16) by omega, show ¬(36 + i < 24) by omega,
    show ¬(36 + i < 32) by omega, show ¬(36 + i < 33) by omega, show ¬(36 + i < 34) by omega,
    show ¬(36 + i < 35) by omega, hi]

@[simp] theorem fieldF_pack : fieldF (packOpWord op f v m a b c d) = f := by
  rw [fieldF, getLsbD_pack]; simp

@[simp] theorem fieldV_pack : fieldV (packOpWord op f v m a b c d) = v := by
  rw [fieldV, getLsbD_pack]; simp

@[simp] theorem fieldM_pack : fieldM (packOpWord op f v m a b c d) = m := by
  rw [fieldM, getLsbD_pack]; simp

@[simp] theorem fieldZ_pack : fieldZ (packOpWord op f v m a b c d) = false := by
  rw [fieldZ, getLsbD_pack]; simp

@[simp] theorem fieldA_pack : fieldA (packOpWord op f v m a b c d) = a := by
  refine BitVec.eq_of_getLsbD_eq fun i hi => ?_
  rw [fieldA, BitVec.getLsbD_extractLsb', getLsbD_pack, Nat.add_sub_cancel_left]
  simp [show ¬(24 + i < 8) by omega, show ¬(24 + i < 16) by omega, show 24 + i < 32 by omega, hi]

@[simp] theorem fieldB_pack : fieldB (packOpWord op f v m a b c d) = b := by
  refine BitVec.eq_of_getLsbD_eq fun i hi => ?_
  rw [fieldB, BitVec.getLsbD_extractLsb', getLsbD_pack, Nat.add_sub_cancel_left]
  simp [show ¬(16 + i < 8) by omega, show 16 + i < 24 by omega, hi]

@[simp] theorem fieldC_pack : fieldC (packOpWord op f v m a b c d) = c := by
  refine BitVec.eq_of_getLsbD_eq fun i hi => ?_
  rw [fieldC, BitVec.getLsbD_extractLsb', getLsbD_pack, Nat.add_sub_cancel_left]
  simp [show 8 + i < 16 by omega, hi]

@[simp] theorem fieldD_pack : fieldD (packOpWord op f v m a b c d) = d := by
  refine BitVec.eq_of_getLsbD_eq fun i hi => ?_
  rw [fieldD, BitVec.getLsbD_extractLsb', getLsbD_pack]
  simp [hi]

end fields

/-- A word whose bit Z is zero is packed from its fields. -/
theorem pack_fields {w : OpWord} (hz : fieldZ w = false) :
    packOpWord (opField w) (fieldF w) (fieldV w) (fieldM w) (fieldA w) (fieldB w) (fieldC w) (fieldD w) = w := by
  refine BitVec.eq_of_getLsbD_eq fun i hi => ?_
  rw [getLsbD_pack]
  simp only [fieldA, fieldB, fieldC, fieldD, opField, fieldF, fieldV, fieldM, fieldZ, BitVec.getLsbD_extractLsb'] at hz ⊢
  by_cases h1 : i < 8
  · simp [h1]
  by_cases h2 : i < 16
  · simp [h1, h2, show i - 8 < 8 by omega, show 8 + (i - 8) = i by omega]
  by_cases h3 : i < 24
  · simp [h1, h2, h3, show i - 16 < 8 by omega, show 16 + (i - 16) = i by omega]
  by_cases h4 : i < 32
  · simp [h1, h2, h3, h4, show i - 24 < 8 by omega, show 24 + (i - 24) = i by omega]
  by_cases h5 : i < 33
  · obtain rfl : i = 32 := by omega
    simpa using hz.symm
  by_cases h6 : i < 34
  · obtain rfl : i = 33 := by omega
    simp
  by_cases h7 : i < 35
  · obtain rfl : i = 34 := by omega
    simp
  by_cases h8 : i < 36
  · obtain rfl : i = 35 := by omega
    simp
  simp [h1, h2, h3, h4, h5, h6, h7, h8, show i - 36 < 4 by omega, show 36 + (i - 36) = i by omega]

/-! ### Coordinates and modes in their fields -/

theorem coordFits_iff {n : Nat} : coordFits n = true ↔ n < 256 := by
  unfold coordFits; exact decide_eq_true_iff

/-- A coordinate that fits its field is read back from it (30_encoding.md R91). -/
theorem toNat_coordField {n : Nat} (h : coordFits n = true) : (coordField n).toNat = n := by
  simp only [coordField, BitVec.toNat_ofNat]
  exact Nat.mod_eq_of_lt (coordFits_iff.1 h)

theorem coordFits_toNat (b : Byte) : coordFits b.toNat = true := coordFits_iff.2 b.isLt

@[simp] theorem coordField_toNat (b : Byte) : coordField b.toNat = b := by simp [coordField]

@[simp] theorem Mode.ofBit_toBit (m : Mode) : Mode.ofBit m.toBit = m := by cases m <;> rfl

@[simp] theorem Mode.toBit_ofBit (b : Bool) : (Mode.ofBit b).toBit = b := by cases b <;> rfl

theorem ifUnusedZero_ok_iff {zero : Bool} {i j : Instr} :
    ifUnusedZero zero i = .ok j ↔ zero = true ∧ i = j := by
  cases zero <;> simp [ifUnusedZero]

end Sys2Proof
end

