-- ==== Sys2Proof/Laws/Memory.lean ====
section
/-! SUPPORT. The laws of the framebuffer: read after write, the canonical form kept, equal reads mean equal memories;
then the same for pixels. -/

namespace Sys2Proof.Machine

theorem unlistedByte_eq : Config.unlistedByte = 0x00#8 := rfl

/-! ### Cells -/

theorem Memory.wf_nil : Memory.wf [] := by simp [Memory.wf]

theorem Memory.wf_cons {k : Nat} {v : Byte} {m : Memory} :
    Memory.wf ((k, v) :: m) ↔
      (∀ q ∈ m, k < q.1) ∧ k < Config.fbBytes ∧ v ≠ Config.unlistedByte ∧ Memory.wf m := by
  simp only [Memory.wf, List.pairwise_cons, List.forall_mem_cons]
  tauto

/-- Below every listed address an address is unlisted. -/
theorem Memory.read_below {m : Memory} {a : Nat} (h : ∀ q ∈ m, a < q.1) : m.read a = Config.unlistedByte := by
  induction m with
  | nil => rfl
  | cons p m ih =>
    obtain ⟨k, v⟩ := p
    have hk : a < k := h _ (List.mem_cons_self ..)
    simp [Memory.read, show k ≠ a by omega, ih fun q hq => h q (List.mem_cons_of_mem _ hq)]

/-- Past the last byte every address is unlisted. -/
theorem Memory.read_beyond {m : Memory} (h : m.wf) {a : Nat} (ha : Config.fbBytes ≤ a) :
    m.read a = Config.unlistedByte := by
  induction m with
  | nil => rfl
  | cons p m ih =>
    obtain ⟨k, v⟩ := p
    obtain ⟨-, hk, -, hm⟩ := Memory.wf_cons.1 h
    simp [Memory.read, show k ≠ a by omega, ih hm]

theorem Memory.read_cons (k : Nat) (v : Byte) (m : Memory) (a : Nat) :
    Memory.read ((k, v) :: m) a = if k = a then v else m.read a := rfl

/-- A cell put below the others, or left out, reads as its byte. -/
theorem Memory.read_cons_below {m : Memory} {a : Nat} (v : Byte) (h : ∀ q ∈ m, a < q.1) (a' : Nat) :
    (Memory.cons a v m).read a' = if a' = a then v else m.read a' := by
  unfold Memory.cons
  split
  · next hv =>
    split
    · next h' => rw [h', Memory.read_below h, hv]
    · rfl
  · rw [Memory.read_cons]; simp [eq_comm]

theorem Memory.mem_write {m : Memory} {a : Nat} {v : Byte} {q : Host.Cell} (h : q ∈ m.write a v) :
    q = (a, v) ∨ q ∈ m := by
  induction m with
  | nil => simp only [Memory.write, Memory.cons] at h; split at h <;> simp_all
  | cons p m ih =>
    obtain ⟨k, w⟩ := p
    simp only [Memory.write, Memory.cons] at h
    split at h
    · split at h <;> simp_all
    · split at h
      · split at h
        · simp [h]
        · rcases List.mem_cons.1 h with h | h <;> simp [h]
      · rcases List.mem_cons.1 h with h | h
        · simp [h]
        · rcases ih h with h | h <;> simp [h]

theorem Memory.wf_consBelow {m : Memory} {a : Nat} {v : Byte} (hm : m.wf) (ha : a < Config.fbBytes)
    (h : ∀ q ∈ m, a < q.1) : (Memory.cons a v m).wf := by
  unfold Memory.cons
  split
  · exact hm
  · next hv => exact Memory.wf_cons.2 ⟨h, ha, hv, hm⟩

/-- A write to an address of the framebuffer keeps the canonical form. -/
theorem Memory.wf_write {m : Memory} (hm : m.wf) {a : Nat} (ha : a < Config.fbBytes) (v : Byte) :
    (m.write a v).wf := by
  induction m with
  | nil => exact Memory.wf_consBelow hm ha (by simp)
  | cons p m ih =>
    obtain ⟨k, w⟩ := p
    obtain ⟨hlt, hk, hw, hm'⟩ := Memory.wf_cons.1 hm
    simp only [Memory.write]
    split
    · next hak =>
      refine Memory.wf_consBelow hm ha ?_
      intro q hq
      rcases List.mem_cons.1 hq with rfl | hq
      · exact hak
      · exact Nat.lt_trans hak (hlt q hq)
    · split
      · next hak => subst hak; exact Memory.wf_consBelow hm' ha hlt
      · next h1 h2 =>
        refine Memory.wf_cons.2 ⟨?_, hk, hw, ih hm'⟩
        intro q hq
        rcases Memory.mem_write hq with rfl | hq
        · show k < a; omega
        · exact hlt q hq

/-- Read after write: the written address gives the byte, every other address what it gave before. -/
theorem Memory.read_write {m : Memory} (hm : m.wf) (a : Nat) (v : Byte) (a' : Nat) :
    (m.write a v).read a' = if a' = a then v else m.read a' := by
  induction m with
  | nil => exact Memory.read_cons_below v (by simp) a'
  | cons p m ih =>
    obtain ⟨k, w⟩ := p
    obtain ⟨hlt, -, -, hm'⟩ := Memory.wf_cons.1 hm
    simp only [Memory.write]
    split
    · next hak =>
      refine Memory.read_cons_below v ?_ a'
      intro q hq
      rcases List.mem_cons.1 hq with rfl | hq
      · exact hak
      · exact Nat.lt_trans hak (hlt q hq)
    · split
      · next hak =>
        subst hak
        rw [Memory.read_cons_below v hlt a', Memory.read_cons]
        by_cases h : a' = a
        · simp [h]
        · simp [h, Ne.symm h]
      · next h1 h2 =>
        rw [Memory.read_cons, ih hm', Memory.read_cons]
        by_cases h : k = a'
        · simp [h, show a' ≠ a by omega]
        · simp [h]

/-- Memories in canonical form that read the same are the same. -/
theorem Memory.ext {m m' : Memory} (hm : m.wf) (hm' : m'.wf) (h : ∀ a, m.read a = m'.read a) : m = m' := by
  induction m generalizing m' with
  | nil =>
    cases m' with
    | nil => rfl
    | cons p m' =>
      obtain ⟨k, v⟩ := p
      obtain ⟨-, -, hv, -⟩ := Memory.wf_cons.1 hm'
      exact absurd (by simpa [Memory.read] using (h k).symm) hv
  | cons p m ih =>
    obtain ⟨k, v⟩ := p
    obtain ⟨hlt, -, hv, hw⟩ := Memory.wf_cons.1 hm
    cases m' with
    | nil => exact absurd (by simpa [Memory.read] using h k) hv
    | cons p' m' =>
      obtain ⟨k', v'⟩ := p'
      obtain ⟨hlt', -, hv', hw'⟩ := Memory.wf_cons.1 hm'
      have hkk : k = k' := by
        rcases Nat.lt_trichotomy k k' with hk | hk | hk
        · refine absurd ?_ hv
          have := h k
          rw [Memory.read_cons, if_pos rfl, Memory.read_below] at this
          · exact this
          · intro q hq
            rcases List.mem_cons.1 hq with rfl | hq
            · exact hk
            · exact Nat.lt_trans hk (hlt' q hq)
        · exact hk
        · refine absurd ?_ hv'
          have := h k'
          rw [Memory.read_cons (k := k'), if_pos rfl, Memory.read_below] at this
          · exact this.symm
          · intro q hq
            rcases List.mem_cons.1 hq with rfl | hq
            · exact hk
            · exact Nat.lt_trans hk (hlt q hq)
      subst hkk
      have hvv : v = v' := by simpa [Memory.read_cons] using h k
      subst hvv
      congr 1
      refine ih hw hw' fun a => ?_
      by_cases ha : k = a
      · subst ha; rw [Memory.read_below hlt, Memory.read_below hlt']
      · simpa [Memory.read_cons, ha] using h a

/-! ### Bytes by band and column -/

theorem linear_lt {b c : Nat} (hb : b ≤ 7) (hc : c ≤ 127) : linear b c < Config.fbBytes := by
  simp only [linear, Config.width, Config.fbBytes]; omega

theorem linear_inj {b c b' c' : Nat} (hc : c ≤ 127) (hc' : c' ≤ 127) :
    linear b c = linear b' c' ↔ b = b' ∧ c = c' := by
  simp only [linear, Config.width]; omega

theorem wf_fbWrite {m : Memory} (hm : m.wf) {b c : Nat} (hb : b ≤ 7) (hc : c ≤ 127) (v : Byte) :
    Memory.wf (fbWrite m b c v) :=
  Memory.wf_write hm (linear_lt hb hc) v

/-- `FbWrite` replaces one byte and no other (20_memory.md R53). -/
theorem fbRead_fbWrite {m : Memory} (hm : m.wf) {b c b' c' : Nat} (hc : c ≤ 127) (hc' : c' ≤ 127) (v : Byte) :
    fbRead (fbWrite m b c v) b' c' = if b' = b ∧ c' = c then v else fbRead m b' c' := by
  simp only [fbRead, fbWrite, Memory.read_write hm, linear_inj hc' hc]

theorem fb_ext {m m' : Memory} (hm : m.wf) (hm' : m'.wf)
    (h : ∀ b c, b ≤ 7 → c ≤ 127 → fbRead m b c = fbRead m' b c) : m = m' := by
  refine Memory.ext hm hm' fun a => ?_
  by_cases ha : a < Config.fbBytes
  · have := h (a / 128) (a % 128) (by simp only [Config.fbBytes] at ha; omega) (by omega)
    simpa [fbRead, linear, Config.width, Nat.div_add_mod'] using this
  · rw [Memory.read_beyond hm (Nat.le_of_not_lt ha), Memory.read_beyond hm' (Nat.le_of_not_lt ha)]

/-! ### Bits and pixels -/

/-- `putBit` makes one bit `on` and leaves the other seven (20_memory.md R54). -/
theorem putBit_getLsbD (on : Bool) (v : Byte) {i j : Nat} (hi : i < 8) (hj : j < 8) :
    (putBit on v i).getLsbD j = if j = i then on else v.getLsbD j := by
  have key : ∀ v : Byte, ∀ i j : Fin 8, ∀ on : Bool,
      (putBit on v i).getLsbD j = if j.val = i.val then on else v.getLsbD j := by
    intro v i j on
    cases on <;> fin_cases i <;> fin_cases j <;> simp [putBit, bitMask]
  exact key v ⟨i, hi⟩ ⟨j, hj⟩ on

theorem inRange_iff {x y : Nat} : inRange x y = true ↔ x ≤ 127 ∧ y ≤ 63 := by simp [inRange]

theorem band_le (y : Nat) : band y ≤ 7 := by simp only [band]; omega

theorem bitPos_lt (y : Nat) : bitPos y < 8 := by simp only [bitPos]; omega

/-- Distinct rows are distinct band and bit pairs (20_memory.md R51(c)). -/
theorem band_bitPos_inj {y y' : Nat} (hy : y ≤ 63) (hy' : y' ≤ 63) :
    band y = band y' ∧ bitPos y = bitPos y' ↔ y = y' := by
  simp only [band, bitPos]; omega

theorem rowOf_le {b i : Nat} : rowOf b i ≤ 63 := by simp only [rowOf]; omega

theorem band_rowOf {b i : Nat} (hb : b ≤ 7) : band (rowOf b i) = b := by simp only [band, rowOf]; omega

theorem bitPos_rowOf {b i : Nat} (hi : i ≤ 7) : bitPos (rowOf b i) = i := by simp only [bitPos, rowOf]; omega

theorem rowOf_band_bitPos {y : Nat} (hy : y ≤ 63) : rowOf (band y) (bitPos y) = y := by
  simp only [band, bitPos, rowOf]; omega

/-- Every bit of the framebuffer is a pixel (20_memory.md R51(b)). -/
theorem fbRead_getLsbD {m : Memory} {b c i : Nat} (hb : b ≤ 7) (hi : i ≤ 7) :
    (fbRead m b c).getLsbD i = pix m c (rowOf b i) := by
  rw [pix, band_rowOf hb, bitPos_rowOf hi]

theorem wf_pixWrite {m : Memory} (hm : m.wf) (x y : Nat) (on : Bool) : Memory.wf (pixWrite m x y on) := by
  unfold pixWrite
  split
  · next h => exact wf_fbWrite hm (band_le y) (inRange_iff.1 h).1 _
  · exact hm

/-- A pixel write out of range changes nothing (20_memory.md R52). -/
theorem pixWrite_outOfRange {m : Memory} {x y : Nat} (h : inRange x y = false) (on : Bool) :
    pixWrite m x y on = m := by simp [pixWrite, h]

/-- A pixel write makes that pixel `on` and leaves every other pixel (40_framebuffer_ops.md R110). -/
theorem pix_pixWrite {m : Memory} (hm : m.wf) (x y : Nat) (on : Bool) {x' y' : Nat} (h' : inRange x' y' = true) :
    pix (pixWrite m x y on) x' y' = if x' = x ∧ y' = y then on else pix m x' y' := by
  obtain ⟨hx', hy'⟩ := inRange_iff.1 h'
  by_cases h : inRange x y = true
  · obtain ⟨hx, hy⟩ := inRange_iff.1 h
    rw [pixWrite, if_pos h, pix, fbRead_fbWrite hm hx hx']
    by_cases hb : band y' = band y ∧ x' = x
    · rw [if_pos hb, putBit_getLsbD on _ (bitPos_lt y) (bitPos_lt y')]
      by_cases hi : bitPos y' = bitPos y
      · rw [if_pos hi, if_pos ⟨hb.2, (band_bitPos_inj hy' hy).1 ⟨hb.1, hi⟩⟩]
      · rw [if_neg hi, if_neg (by rintro ⟨-, rfl⟩; exact hi rfl), pix, hb.1, hb.2]
    · rw [if_neg hb, if_neg (by rintro ⟨rfl, rfl⟩; exact hb ⟨rfl, rfl⟩), pix]
  · rw [pixWrite, if_neg h, if_neg]
    rintro ⟨rfl, rfl⟩; exact h h'

/-- Framebuffers in canonical form with the same pixels are the same. -/
theorem pix_ext {m m' : Memory} (hm : m.wf) (hm' : m'.wf)
    (h : ∀ x y, inRange x y = true → pix m x y = pix m' x y) : m = m' := by
  refine fb_ext hm hm' fun b c hb hc => ?_
  refine BitVec.eq_of_getLsbD_eq fun i hi => ?_
  rw [fbRead_getLsbD hb (by omega), fbRead_getLsbD hb (by omega)]
  exact h _ _ (inRange_iff.2 ⟨hc, rowOf_le⟩)

/-! ### Fills -/

@[simp] theorem fillPixels_nil (on : Bool) (m : Memory) : fillPixels on [] m = m := rfl

@[simp] theorem fillPixels_cons (on : Bool) (p : Nat × Nat) (ps : List (Nat × Nat)) (m : Memory) :
    fillPixels on (p :: ps) m = fillPixels on ps (pixWrite m p.1 p.2 on) := rfl

theorem wf_fillPixels {m : Memory} (hm : m.wf) (on : Bool) (ps : List (Nat × Nat)) :
    Memory.wf (fillPixels on ps m) := by
  induction ps generalizing m with
  | nil => exact hm
  | cons p ps ih => exact ih (wf_pixWrite hm _ _ _)

/-- A fill makes every in-range pixel of the list `on` and leaves every other pixel (40_framebuffer_ops.md R112). -/
theorem pix_fillPixels {m : Memory} (hm : m.wf) (on : Bool) (ps : List (Nat × Nat)) {x y : Nat}
    (h : inRange x y = true) :
    pix (fillPixels on ps m) x y = if (x, y) ∈ ps then on else pix m x y := by
  induction ps generalizing m with
  | nil => simp
  | cons p ps ih =>
    obtain ⟨px, py⟩ := p
    rw [fillPixels_cons, ih (wf_pixWrite hm _ _ _), pix_pixWrite hm _ _ _ h]
    by_cases h1 : (x, y) ∈ ps
    · simp [h1]
    · by_cases h2 : x = px ∧ y = py
      · simp [h2]
      · simp [h1, h2, Prod.ext_iff]

theorem mem_closedRange {lo hi n : Nat} : n ∈ closedRange lo hi ↔ lo ≤ n ∧ n ≤ hi := by
  simp only [closedRange, List.mem_range'_1]; omega

/-- The closed rectangle, both ends included, empty where a lower bound exceeds an upper one. -/
theorem mem_rectPixels {x1 y1 x2 y2 x y : Nat} :
    (x, y) ∈ rectPixels x1 y1 x2 y2 ↔ (x1 ≤ x ∧ x ≤ x2) ∧ (y1 ≤ y ∧ y ≤ y2) := by
  simp only [rectPixels, List.mem_flatMap, List.mem_map, Prod.mk.injEq, mem_closedRange]
  constructor
  · rintro ⟨b, hb, a, ha, rfl, rfl⟩; exact ⟨ha, hb⟩
  · rintro ⟨hx, hy⟩; exact ⟨y, hy, x, hx, rfl, rfl⟩

/-! ### Clearing -/

theorem mem_allBytes {b c : Nat} : (b, c) ∈ allBytes ↔ b ≤ 7 ∧ c ≤ 127 := by
  simp only [allBytes, List.mem_flatMap, List.mem_map, List.mem_range, Prod.mk.injEq, Config.bands, Config.width]
  constructor
  · rintro ⟨b', hb, c', hc, rfl, rfl⟩; omega
  · rintro ⟨hb, hc⟩; exact ⟨b, by omega, c, by omega, rfl, rfl⟩

/-- Zero bytes written at places of the framebuffer: the canonical form stays, each of them reads as zero. -/
theorem zeroBytes_spec (ps : List (Nat × Nat)) (hps : ∀ p ∈ ps, p.1 ≤ 7 ∧ p.2 ≤ 127) {m : Memory} (hm : m.wf) :
    Memory.wf (ps.foldl (fun m p => fbWrite m p.1 p.2 0x00#8) m) ∧
      ∀ b c, c ≤ 127 → fbRead (ps.foldl (fun m p => fbWrite m p.1 p.2 0x00#8) m) b c =
        if (b, c) ∈ ps then 0x00#8 else fbRead m b c := by
  induction ps generalizing m with
  | nil => simpa using hm
  | cons p ps ih =>
    obtain ⟨pb, pc⟩ := p
    have hp : pb ≤ 7 ∧ pc ≤ 127 := hps _ (List.mem_cons_self ..)
    have hw := wf_fbWrite hm hp.1 hp.2 0x00#8
    obtain ⟨h1, h2⟩ := ih (fun q hq => hps q (List.mem_cons_of_mem _ hq)) hw
    refine ⟨h1, fun b c hc => ?_⟩
    rw [List.foldl_cons, h2 b c hc, fbRead_fbWrite hm hp.2 hc]
    by_cases h3 : (b, c) ∈ ps
    · simp [h3]
    · by_cases h4 : b = pb ∧ c = pc
      · simp [h4]
      · simp [h3, h4, Prod.ext_iff]

/-- Zero written to every byte leaves the framebuffer that lists nothing (40_framebuffer_ops.md R113). -/
theorem zeroWrites_eq_zeroFb {m : Memory} (hm : m.wf) :
    allBytes.foldl (fun m p => fbWrite m p.1 p.2 0x00#8) m = zeroFb := by
  obtain ⟨h1, h2⟩ := zeroBytes_spec allBytes (fun p hp => mem_allBytes.1 hp) hm
  refine fb_ext h1 Memory.wf_nil fun b c hb hc => ?_
  rw [h2 b c hc, if_pos (mem_allBytes.2 ⟨hb, hc⟩)]; rfl

/-- The count of 40_framebuffer_ops.md R114(f) with the subtraction of naturals in place of `max 0`. -/
theorem rectCount_eq (x1 y1 x2 y2 : Nat) :
    rectCount x1 y1 x2 y2 =
      if x1 ≤ 127 ∧ y1 ≤ 63 then (min x2 127 + 1 - x1) * (min y2 63 + 1 - y1) else 0 := by
  have h : ∀ a b k : Nat, max 0 (min (b : Int) k - a + 1) = ((min b k + 1 - a : Nat) : Int) := by omega
  simp only [rectCount]
  congr 1
  rw [show (127 : Int) = ((127 : Nat) : Int) from rfl, show (63 : Int) = ((63 : Nat) : Int) from rfl, h, h,
    ← Int.natCast_mul, Int.toNat_natCast]

theorem wf_zeroFb : Memory.wf zeroFb := Memory.wf_nil

theorem fbRead_zeroFb (b c : Nat) : fbRead zeroFb b c = 0x00#8 := rfl

theorem pix_zeroFb (x y : Nat) : pix zeroFb x y = false := by simp [pix, fbRead_zeroFb]

/-! ### Reset -/

/-- The free cells of a stretch of addresses lie in it, rise strictly, and hold no unlisted byte. -/
theorem freeCells_spec (a n : Nat) :
    (freeCells a n).Pairwise (fun p q => p.1 < q.1) ∧
      ∀ p ∈ freeCells a n, a ≤ p.1 ∧ p.1 < a + n ∧ p.2 ≠ Config.unlistedByte := by
  induction n generalizing a with
  | zero => simp [freeCells]
  | succ n ih =>
    obtain ⟨h1, h2⟩ := ih (a + 1)
    have h3 : ∀ p ∈ freeCells (a + 1) n, a ≤ p.1 ∧ p.1 < a + (n + 1) ∧ p.2 ≠ Config.unlistedByte := fun p hp => by
      obtain ⟨h4, h5, h6⟩ := h2 p hp
      exact ⟨by omega, by omega, h6⟩
    rw [freeCells]
    split
    · exact ⟨h1, h3⟩
    · next hne =>
      refine ⟨List.pairwise_cons.2 ⟨fun p hp => ?_, h1⟩, List.forall_mem_cons.2 ⟨⟨Nat.le_refl a, ?_, hne⟩, h3⟩⟩
      · exact Nat.lt_of_succ_le (h2 p hp).1
      · show a < a + (n + 1); omega

/-- The free cells of a stretch of addresses read there as the free bytes. -/
theorem read_freeCells (a n k : Nat) :
    (freeCells a n).read k = if a ≤ k ∧ k < a + n then Config.resetFbByte k else Config.unlistedByte := by
  induction n generalizing a with
  | zero => rw [freeCells, if_neg (by omega)]; rfl
  | succ n ih =>
    rw [freeCells]
    by_cases hk : k = a
    · subst hk
      rw [if_pos (by omega : k ≤ k ∧ k < k + (n + 1))]
      split
      · next h => rw [ih, if_neg (by omega), h]
      · rw [Memory.read_cons, if_pos rfl]
    · have hc : (a ≤ k ∧ k < a + (n + 1)) ↔ (a + 1 ≤ k ∧ k < a + 1 + n) := by omega
      simp only [hc]
      split
      · rw [ih]
      · rw [Memory.read_cons, if_neg (Ne.symm hk), ih]

/-- The reset framebuffer is in canonical form. -/
theorem wf_resetFb : Memory.wf resetFb := by
  obtain ⟨h1, h2⟩ := freeCells_spec 0 Config.fbBytes
  exact ⟨h1, fun p hp => ⟨by simpa using (h2 p hp).2.1, (h2 p hp).2.2⟩⟩

/-- At reset every byte of the framebuffer is its free byte (10_state.md R33). -/
theorem read_resetFb {a : Nat} (ha : a < Config.fbBytes) : resetFb.read a = Config.resetFbByte a := by
  rw [resetFb, read_freeCells, if_pos (by omega)]

end Sys2Proof.Machine
end

