-- ==== Sys2Proof/Laws/State.lean ====
section
/-! SUPPORT. One lemma for each field of State under each update of Machine/Ops.lean, so that no proof unfolds a record
update. -/

namespace Sys2Proof.Machine

section setFb
variable (s : State) (m : Memory)
@[simp] theorem State.setFb_fb : (s.setFb m).fb = m := rfl
@[simp] theorem State.setFb_pins : (s.setFb m).pins = s.pins := rfl
@[simp] theorem State.setFb_trace : (s.setFb m).trace = s.trace := rfl
@[simp] theorem State.setFb_issued : (s.setFb m).issued = s.issued := rfl
@[simp] theorem State.setFb_returned : (s.setFb m).returned = s.returned := rfl
@[simp] theorem State.setFb_draws : (s.setFb m).draws = s.draws := rfl
@[simp] theorem State.setFb_self : s.setFb s.fb = s := rfl
end setFb

section drive
variable (s : State) (d : Drive)
@[simp] theorem State.drive_fb : (s.drive d).fb = s.fb := rfl
@[simp] theorem State.drive_pins : (s.drive d).pins = s.pins.set d := rfl
@[simp] theorem State.drive_trace : (s.drive d).trace = s.trace ++ [d] := rfl
@[simp] theorem State.drive_issued : (s.drive d).issued = s.issued := rfl
@[simp] theorem State.drive_returned : (s.drive d).returned = s.returned := rfl
@[simp] theorem State.drive_draws : (s.drive d).draws = s.draws := rfl
end drive

section giveBit
variable (s : State) (b : Bool)
@[simp] theorem State.giveBit_fb : (s.giveBit b).fb = s.fb := rfl
@[simp] theorem State.giveBit_pins : (s.giveBit b).pins = s.pins := rfl
@[simp] theorem State.giveBit_trace : (s.giveBit b).trace = s.trace := rfl
@[simp] theorem State.giveBit_issued : (s.giveBit b).issued = s.issued := rfl
@[simp] theorem State.giveBit_returned : (s.giveBit b).returned = s.returned ++ [b] := rfl
@[simp] theorem State.giveBit_draws : (s.giveBit b).draws = s.draws := rfl
end giveBit

section giveFreeBit
variable (s : State)
@[simp] theorem State.giveFreeBit_fb : s.giveFreeBit.fb = s.fb := rfl
@[simp] theorem State.giveFreeBit_pins : s.giveFreeBit.pins = s.pins := rfl
@[simp] theorem State.giveFreeBit_trace : s.giveFreeBit.trace = s.trace := rfl
@[simp] theorem State.giveFreeBit_issued : s.giveFreeBit.issued = s.issued := rfl
@[simp] theorem State.giveFreeBit_returned :
    s.giveFreeBit.returned = s.returned ++ [Config.freeBit s.draws] := rfl
@[simp] theorem State.giveFreeBit_draws : s.giveFreeBit.draws = s.draws + 1 := rfl
end giveFreeBit

section driveAll
variable (s : State) (ds : List Drive)

@[simp] theorem State.driveAll_nil : s.driveAll [] = s := rfl

@[simp] theorem State.driveAll_cons (d : Drive) : s.driveAll (d :: ds) = (s.drive d).driveAll ds := rfl

theorem State.driveAll_append (es : List Drive) : s.driveAll (ds ++ es) = (s.driveAll ds).driveAll es :=
  List.foldl_append

/-- All that a list of drives does: PINS takes each in turn, TRACE gains them all, nothing else changes. -/
theorem State.driveAll_eq :
    s.driveAll ds = { s with pins := ds.foldl Pins.set s.pins, trace := s.trace ++ ds } := by
  induction ds generalizing s with
  | nil => simp
  | cons d ds ih => rw [State.driveAll_cons, ih]; simp [State.drive]

@[simp] theorem State.driveAll_fb : (s.driveAll ds).fb = s.fb := by rw [State.driveAll_eq]
@[simp] theorem State.driveAll_pins : (s.driveAll ds).pins = ds.foldl Pins.set s.pins := by rw [State.driveAll_eq]
@[simp] theorem State.driveAll_trace : (s.driveAll ds).trace = s.trace ++ ds := by rw [State.driveAll_eq]
@[simp] theorem State.driveAll_issued : (s.driveAll ds).issued = s.issued := by rw [State.driveAll_eq]
@[simp] theorem State.driveAll_returned : (s.driveAll ds).returned = s.returned := by rw [State.driveAll_eq]
@[simp] theorem State.driveAll_draws : (s.driveAll ds).draws = s.draws := by rw [State.driveAll_eq]
end driveAll

section issueFirst
variable (s : State) (w : HostWord)
@[simp] theorem State.issueFirst_fb : (s.issueFirst w).fb = s.fb := rfl
@[simp] theorem State.issueFirst_pins : (s.issueFirst w).pins = s.pins := rfl
@[simp] theorem State.issueFirst_trace : (s.issueFirst w).trace = s.trace := rfl
@[simp] theorem State.issueFirst_issued : (s.issueFirst w).issued = w :: s.issued := rfl
@[simp] theorem State.issueFirst_returned : (s.issueFirst w).returned = s.returned := rfl
@[simp] theorem State.issueFirst_draws : (s.issueFirst w).draws = s.draws := rfl
@[simp] theorem takeIssued_issueFirst : takeIssued (s.issueFirst w) = some (w, s) := rfl
end issueFirst

section pins
variable (p : Pins)
@[simp] theorem Pins.set_sck (l : Level) : p.set (.sck l) = { p with sck := l } := rfl
@[simp] theorem Pins.set_sda (b : Bool) : p.set (.sda b) = { p with sda := b } := rfl
@[simp] theorem Pins.set_cs (a : Strobe) : p.set (.cs a) = { p with cs := a } := rfl
@[simp] theorem Pins.set_dc (m : Mode) : p.set (.dc m) = { p with dc := m } := rfl
@[simp] theorem Pins.set_rst (a : Strobe) : p.set (.rst a) = { p with rst := a } := rfl

theorem Pins.idle_iff {p : Pins} : p.idle = true ↔ p.sck = .low ∧ p.cs = .released := by simp [Pins.idle]
end pins

section reset
@[simp] theorem State.reset_fb : State.reset.fb = resetFb := rfl
@[simp] theorem State.reset_pins : State.reset.pins = resetPins := rfl
@[simp] theorem State.reset_trace : State.reset.trace = [] := rfl
@[simp] theorem State.reset_issued : State.reset.issued = [] := rfl
@[simp] theorem State.reset_returned : State.reset.returned = [] := rfl
@[simp] theorem State.reset_draws : State.reset.draws = 0 := rfl
theorem resetPins_idle : resetPins.idle = true := rfl
end reset

end Sys2Proof.Machine
end

