-- ==== Sys2Proof/Laws/Ops.lean ====
section
/-! SUPPORT. What the shared operations do, said once: frames and their drives, `sendFrames`, `flushIf`, the receiver's
walk over one frame and over many, `step`. -/

namespace Sys2Proof.Machine

/-! ### Frames -/

@[simp] theorem frameDrives_length (f : Frame) : (frameDrives f).length = 27 := by
  simp [frameDrives, bitDrives]

theorem flatMap_frameDrives_length (fs : List Frame) : (fs.flatMap frameDrives).length = 27 * fs.length := by
  induction fs with
  | nil => rfl
  | cons f fs ih => simp [ih]; omega

/-- The lines after a frame (41_serializer_ops.md R130): DC the mode, SDA bit 0, SCK low, CS released, RST as before. -/
theorem foldl_set_frameDrives (p : Pins) (f : Frame) :
    (frameDrives f).foldl Pins.set p =
      { sck := .low, sda := f.2.getLsbD 0, cs := .released, dc := f.1, rst := p.rst } := by
  simp [frameDrives, bitDrives]

/-- Frames keep the lines idle. -/
theorem idle_after_frames {p : Pins} (hp : p.idle = true) (fs : List Frame) :
    ((fs.flatMap frameDrives).foldl Pins.set p).idle = true := by
  induction fs generalizing p with
  | nil => exact hp
  | cons f fs ih =>
    rw [List.flatMap_cons, List.foldl_append]
    exact ih (by rw [foldl_set_frameDrives]; rfl)

/-- Frames leave the reset line. -/
theorem rst_after_frames (p : Pins) (fs : List Frame) :
    ((fs.flatMap frameDrives).foldl Pins.set p).rst = p.rst := by
  induction fs generalizing p with
  | nil => rfl
  | cons f fs ih => rw [List.flatMap_cons, List.foldl_append, ih, foldl_set_frameDrives]

/-- After at least one frame the lines are as its last frame leaves them. -/
theorem pins_after_frames (p : Pins) (fs : List Frame) (f : Frame) :
    (((fs ++ [f]).flatMap frameDrives).foldl Pins.set p) =
      { sck := .low, sda := f.2.getLsbD 0, cs := .released, dc := f.1, rst := p.rst } := by
  rw [List.flatMap_append, List.foldl_append, List.flatMap_singleton, foldl_set_frameDrives, rst_after_frames]

/-! ### Sending -/

/-- All that `sendFrames` can answer with a next state. -/
theorem sendFrames_next_iff {fs : List Frame} {s t : State} :
    sendFrames fs s = .next t ↔ (s.pins.idle = true ∨ fs = []) ∧ t = s.driveAll (fs.flatMap frameDrives) := by
  unfold sendFrames
  by_cases h : s.pins.idle = true ∨ fs = []
  · rw [if_pos (by simpa using h), Host.Outcome.next.injEq]
    exact ⟨fun e => ⟨h, e.symm⟩, fun e => e.2.symm⟩
  · rw [if_neg (by simpa using h)]
    exact ⟨fun e => by simp at e, fun e => absurd e.1 h⟩

/-- All that `sendFrames` can refuse. -/
theorem sendFrames_refused_iff {fs : List Frame} {s : State} {r : Refusal} :
    sendFrames fs s = .refused r ↔ (s.pins.idle = false ∧ fs ≠ []) ∧ r = .linesNotIdle := by
  unfold sendFrames
  by_cases h : s.pins.idle = true ∨ fs = []
  · rw [if_pos (by simpa using h)]
    refine ⟨fun e => by simp at e, fun e => ?_⟩
    rcases h with h | h
    · simp [h] at e
    · exact absurd h e.1.2
  · rw [if_neg (by simpa using h), Host.Outcome.refused.injEq]
    rw [not_or] at h
    exact ⟨fun e => ⟨⟨by simpa using h.1, h.2⟩, e.symm⟩, fun e => e.2.symm⟩

theorem sendFrames_idle {s : State} (h : s.pins.idle = true) (fs : List Frame) :
    sendFrames fs s = .next (s.driveAll (fs.flatMap frameDrives)) :=
  sendFrames_next_iff.2 ⟨.inl h, rfl⟩

@[simp] theorem sendFrames_nil (s : State) : sendFrames [] s = .next s := by simp [sendFrames]

/-- A list of frames is its first frame sent as a WRITEBYTE, then the rest: the one check at entry serves them all. -/
theorem sendFrames_cons (f : Frame) (fs : List Frame) (s : State) :
    sendFrames (f :: fs) s =
      match sendFrames [f] s with
      | .next t => sendFrames fs t
      | .fault r => .fault r
      | .refused r => .refused r := by
  by_cases h : s.pins.idle = true
  · rw [sendFrames_idle h, sendFrames_idle h]
    have h' := idle_after_frames h [f]
    simp only [List.flatMap_cons, List.flatMap_nil, List.append_nil] at h' ⊢
    rw [sendFrames_idle (by simpa using h'), State.driveAll_append]
  · have h1 : sendFrames [f] s = .refused .linesNotIdle := sendFrames_refused_iff.2 ⟨⟨by simpa using h, by simp⟩, rfl⟩
    rw [h1]; exact sendFrames_refused_iff.2 ⟨⟨by simpa using h, by simp⟩, rfl⟩

theorem length_cmdFrames (cs : List Byte) : (cmdFrames cs).length = cs.length := by simp [cmdFrames]

theorem flushFrames_ne_nil (page : Nat → ByteList1) (m : Memory) : flushFrames page m ≠ [] := by
  simp [flushFrames, bandFrames, cmdFrames, ByteList1.toList, Config.bands, List.range_succ]

/-- All that the optional flush can answer with a next state. -/
theorem flushIf_next_iff {f : Bool} {s t : State} :
    flushIf f s = .next t ↔
      (f = true → s.pins.idle = true) ∧
        t = s.driveAll ((if f then flushFrames Config.pageCmd s.fb else []).flatMap frameDrives) := by
  cases f
  · simp only [flushIf, Host.Outcome.next.injEq, Bool.false_eq_true, false_implies, true_and, if_false,
      List.flatMap_nil, State.driveAll_nil]
    exact eq_comm
  · simp only [flushIf, flushFb, sendFrames_next_iff, flushFrames_ne_nil, or_false, if_true, true_implies]

/-! ### The receiver -/

/-- The receiver's reading of one byte's samples gives the byte back (41_serializer_ops.md R133). -/
theorem byteOfSamples_eq (d : Byte) :
    byteOfSamples [d.getLsbD 7, d.getLsbD 6, d.getLsbD 5, d.getLsbD 4, d.getLsbD 3, d.getLsbD 2, d.getLsbD 1,
      d.getLsbD 0] = d := by
  revert d; decide

/-- A record equal to the one before it shows the receiver nothing. -/
@[simp] theorem sample_self (p : Pins) (b : Option (List (Bool × Mode))) : sample p p b = b := by
  obtain ⟨sck, sda, cs, dc, rst⟩ := p
  cases sck <;> cases cs <;> simp [sample]

@[simp] theorem closes_self (p : Pins) (b : Option (List (Bool × Mode))) : closes p p b = [] := by
  obtain ⟨sck, sda, cs, dc, rst⟩ := p
  cases cs <;> simp [closes]

/-- Over the 27 drives of a frame from idle lines the receiver extracts that frame, and stands outside a bracket after
it (41_serializer_ops.md R133). -/
theorem framesFrom_frame {p : Pins} (hp : p.idle = true) (f : Frame) (ds : List Drive) :
    framesFrom p (frameDrives f ++ ds) = f :: framesFrom ((frameDrives f).foldl Pins.set p) ds := by
  obtain ⟨h1, h2⟩ := Pins.idle_iff.1 hp
  obtain ⟨sck, sda, cs, dc, rst⟩ := p
  simp only at h1 h2
  subst h1 h2
  obtain ⟨m, d⟩ := f
  rw [foldl_set_frameDrives]
  simp only [frameDrives, bitDrives, List.flatMap_cons, List.flatMap_nil, List.cons_append, List.nil_append,
    framesFrom, waveFrom, receive, closes, sample, Pins.set]
  simpa [closeBracket] using byteOfSamples_eq d

/-- A drive of the reset line from idle lines shows the receiver nothing. -/
theorem framesFrom_rst {p : Pins} (hp : p.idle = true) (a : Strobe) (ds : List Drive) :
    framesFrom p (.rst a :: ds) = framesFrom (p.set (.rst a)) ds := by
  obtain ⟨h1, h2⟩ := Pins.idle_iff.1 hp
  simp [framesFrom, waveFrom, receive, closes, sample, h1, h2]

theorem framesFrom_frames {p : Pins} (hp : p.idle = true) (fs : List Frame) (ds : List Drive) :
    framesFrom p (fs.flatMap frameDrives ++ ds) =
      fs ++ framesFrom ((fs.flatMap frameDrives).foldl Pins.set p) ds := by
  induction fs generalizing p with
  | nil => rfl
  | cons f fs ih =>
    rw [List.flatMap_cons, List.append_assoc, framesFrom_frame hp, ih, List.foldl_append]
    · rfl
    · rw [foldl_set_frameDrives]; rfl

/-! ### A step -/

/-- With something issued, a step is the decoder's instruction performed, or the refusal of a reserved word. -/
theorem step_cons {s : State} {w : HostWord} {ws : List HostWord} (h : s.issued = w :: ws) :
    step s =
      match decode w with
      | .ok i => exec i { s with issued := ws }
      | .error why => .refused (.reservedWord why) := by
  simp only [step, takeIssued, h] <;> rfl

theorem step_nil {s : State} (h : s.issued = []) : step s = .next s := by
  simp only [step, takeIssued, h]

end Sys2Proof.Machine
end

