-- ==== Sys2Proof/Laws/Meanings.lean ====
section
/-! SUPPORT. Each instruction's meaning as one equation over the shared operations, for proofs to rewrite with instead of
unfolding `exec`. -/

namespace Sys2Proof.Machine

variable (s : State)

theorem exec_setPixel (x y : Nat) (on : Bool) :
    exec (.setPixel x y on) s = .next (s.setFb (pixWrite s.fb x y on)) := rfl

theorem exec_getPixel (x y : Nat) :
    exec (.getPixel x y) s = if inRange x y then .next (s.giveBit (pix s.fb x y)) else .next s.giveFreeBit := rfl

theorem exec_fillRect (x1 y1 x2 y2 : Nat) (on f : Bool) :
    exec (.fillRect x1 y1 x2 y2 on f) s = flushIf f (s.setFb (fillPixels on (rectPixels x1 y1 x2 y2) s.fb)) := rfl

theorem exec_clear (f : Bool) : exec (.clear f) s = flushIf f (s.setFb zeroFb) := rfl

theorem exec_writeByte (d : Byte) (m : Mode) : exec (.writeByte d m) s = sendFrames [(m, d)] s := rfl

theorem exec_powerOn : exec .powerOn s = sendFrames (cmdFrames Config.powerOnSeq) s := rfl

theorem exec_powerOff : exec .powerOff s = sendFrames (cmdFrames Config.powerOffSeq) s := rfl

theorem exec_initSeq : exec .initSeq s = sendFrames (cmdFrames Config.initSeq) s := rfl

theorem exec_flush : exec .flush s = sendFrames (flushFrames Config.pageCmd s.fb) s := rfl

theorem exec_rstAssert : exec .rstAssert s = .next (s.drive (.rst .asserted)) := rfl

theorem exec_rstRelease : exec .rstRelease s = .next (s.drive (.rst .released)) := rfl

theorem exec_frameCmd (d : Byte) : exec (.frameCmd d) s = sendFrames [(.cmd, d)] s := rfl

theorem exec_frameData (d : Byte) : exec (.frameData d) s = sendFrames [(.data, d)] s := rfl

theorem flushIf_false : flushIf false s = .next s := rfl

theorem flushIf_true : flushIf true s = sendFrames (flushFrames Config.pageCmd s.fb) s := rfl

theorem performAll_nil : performAll [] s = .next s := rfl

/-- Performing a list goes on from the state its first operation answers. -/
theorem performAll_cons {i : Instr} {is : List Instr} {t : State} (h : exec i s = .next t) :
    performAll (i :: is) s = performAll is t := by
  simp only [performAll, h]

/-- Performing two lists, the first of which completes, is performing the second on the state it leaves. -/
theorem performAll_append {is js : List Instr} {s t : State} (h : performAll is s = .next t) :
    performAll (is ++ js) s = performAll js t := by
  induction is generalizing s with
  | nil => cases h; rfl
  | cons i is ih =>
    simp only [List.cons_append, performAll] at h ⊢
    split at h
    · exact ih h
    · cases h
    · cases h

end Sys2Proof.Machine
end

