-- ==== Sys2Proof/Laws/PerInstr.lean ====
section
/-! SUPPORT. Statements made for each constructor of Instr. Family `OpcodeField`: the encoding's format and its
operation number are the opcode map's (30_encoding.md R92, R82). -/

namespace Sys2Proof.Laws.OpcodeField

/-- The format and the selecting bits of an encoded instruction. -/
inductive Selector where
  | op (n : BitVec 4)
  | frame (mode : Bool)
deriving DecidableEq, Repr

/-- What selects the instruction of a word: `op` of an operation word, the mode symbol of a frame pattern. -/
def selector : HostWord → Selector
  | .opw w => .op (opField w)
  | .w9 w => .frame (w.getLsbD 8)

/-- The row's selector, from the table. -/
def rowOf : Instr → Selector
  | .setPixel _ _ _ => .op 0x1#4
  | .getPixel _ _ => .op 0x2#4
  | .fillRect _ _ _ _ _ _ => .op 0x3#4
  | .clear _ => .op 0x4#4
  | .writeByte _ _ => .op 0x5#4
  | .powerOn => .op 0x6#4
  | .powerOff => .op 0x7#4
  | .initSeq => .op 0x8#4
  | .flush => .op 0x9#4
  | .rstAssert => .op 0xA#4
  | .rstRelease => .op 0xB#4
  | .frameCmd _ => .frame false
  | .frameData _ => .frame true

/-- The encoder gives every instruction its row's selector. -/
def Statement (i : Instr) : Prop := selector (encode i) = rowOf i

theorem selector_opw (op : BitVec 4) (f v m : Bool) (a b c d : Byte) :
    selector (.opw (packOpWord op f v m a b c d)) = .op op := by
  rw [selector, opField_pack]

theorem setPixel (x y : Nat) (on : Bool) : Statement (.setPixel x y on) := selector_opw ..
theorem getPixel (x y : Nat) : Statement (.getPixel x y) := selector_opw ..
theorem fillRect (x1 y1 x2 y2 : Nat) (on flush : Bool) : Statement (.fillRect x1 y1 x2 y2 on flush) := selector_opw ..
theorem clear (flush : Bool) : Statement (.clear flush) := selector_opw ..
theorem writeByte (data : Byte) (mode : Mode) : Statement (.writeByte data mode) := selector_opw ..
theorem powerOn : Statement .powerOn := selector_opw ..
theorem powerOff : Statement .powerOff := selector_opw ..
theorem initSeq : Statement .initSeq := selector_opw ..
theorem flush : Statement .flush := selector_opw ..
theorem rstAssert : Statement .rstAssert := selector_opw ..
theorem rstRelease : Statement .rstRelease := selector_opw ..
theorem frameCmd (data : Byte) : Statement (.frameCmd data) := by
  revert data; unfold Statement; decide
theorem frameData (data : Byte) : Statement (.frameData data) := by
  revert data; unfold Statement; decide

end Sys2Proof.Laws.OpcodeField
end

