-- ==== Sys2Proof/Machine/Assembly.lean ====
section
/-! DEFINITION. The assembly syntax of 30_encoding.md R96, as a reader of one line: the operations it stands for, or
none where it is no line of the syntax. The pseudo-operations of R97 are expanded. -/

namespace Sys2Proof.Machine.Asm

/-- A blank. -/
def isBlank (c : Char) : Bool := c == ' ' || c == '\t'

/-- Blanks at both ends removed. -/
def trim (cs : List Char) : List Char := ((cs.dropWhile isBlank).reverse.dropWhile isBlank).reverse

/-- A letter, as the names of the operations are written with. -/
def isLetter (c : Char) : Bool := (decide ('A' ≤ c) && decide (c ≤ 'Z')) || (decide ('a' ≤ c) && decide (c ≤ 'z'))

/-- The pieces between commas. -/
def splitCommas : List Char → List (List Char)
  | [] => [[]]
  | c :: cs =>
    if c = ',' then [] :: splitCommas cs
    else
      match splitCommas cs with
      | [] => [[c]]
      | t :: ts => (c :: t) :: ts

/-- The operands of a list written with commas; none for a blank text. -/
def operands (cs : List Char) : List (List Char) := if trim cs = [] then [] else (splitCommas cs).map trim

/-- A digit's value, decimal or hexadecimal. -/
def digit (c : Char) : Option Nat :=
  if '0' ≤ c ∧ c ≤ '9' then some (c.toNat - 48)
  else if 'a' ≤ c ∧ c ≤ 'f' then some (c.toNat - 87)
  else if 'A' ≤ c ∧ c ≤ 'F' then some (c.toNat - 55)
  else none

/-- The number digits write in a base, most significant first, continuing from `n`. -/
def digits (base : Nat) : List Char → Nat → Option Nat
  | [], n => some n
  | c :: cs, n =>
    match digit c with
    | some d => if d < base then digits base cs (n * base + d) else none
    | none => none

/-- A decimal or `0x` hexadecimal number (30_encoding.md R96). -/
def number : List Char → Option Nat
  | [] => none
  | '0' :: 'x' :: c :: cs => digits 16 (c :: cs) 0
  | c :: cs => digits 10 (c :: cs) 0

/-- A coordinate (00_scope.md R11). -/
def coord (cs : List Char) : Option Nat :=
  match number cs with
  | some n => if coordFits n then some n else none
  | none => none

/-- A byte. -/
def byte (cs : List Char) : Option Byte :=
  match number cs with
  | some n => if n < 256 then some (BitVec.ofNat 8 n) else none
  | none => none

/-- Bytes, each a number. -/
def bytes : List (List Char) → Option (List Byte)
  | [] => some []
  | t :: ts =>
    match byte t, bytes ts with
    | some b, some bs => some (b :: bs)
    | _, _ => none

/-- A flag, written 0 or 1 (30_encoding.md R96). -/
def flag (cs : List Char) : Option Bool :=
  if cs = ['0'] then some false else if cs = ['1'] then some true else none

/-- A mode, written CMD or DATA (30_encoding.md R96). -/
def mode (cs : List Char) : Option Mode :=
  if cs = "CMD".toList then some .cmd else if cs = "DATA".toList then some .data else none

/-- The names of the operations and pseudo-operations that take a line. -/
inductive Name where
  | setPixel
  | getPixel
  | fillRect
  | clear
  | writeByte
  | powerOn
  | powerOff
  | initSeq
  | flush
  | rstAssert
  | rstRelease
  | bringup
  | rstPulse
  | sendCmd
deriving DecidableEq, Repr

/-- The mnemonics, in capitals (30_encoding.md R96, R97). -/
def mnemonics : List (List Char × Name) :=
  [("SETPIXEL".toList, .setPixel), ("GETPIXEL".toList, .getPixel), ("FILLRECT".toList, .fillRect),
   ("CLEAR".toList, .clear), ("WRITEBYTE".toList, .writeByte), ("POWERON".toList, .powerOn),
   ("POWEROFF".toList, .powerOff), ("INITSEQ".toList, .initSeq), ("FLUSH".toList, .flush),
   ("RSTASSERT".toList, .rstAssert), ("RSTRELEASE".toList, .rstRelease), ("BRINGUP".toList, .bringup),
   ("RSTPULSE".toList, .rstPulse), ("SENDCMD".toList, .sendCmd)]

/-- The document's call names, accepted as aliases (30_encoding.md R96). -/
def callNames : List (List Char × Name) :=
  [("setPixel".toList, .setPixel), ("fillRect".toList, .fillRect), ("clear".toList, .clear),
   ("writeByte".toList, .writeByte), ("powerOn".toList, .powerOn), ("powerOff".toList, .powerOff),
   ("initSequence".toList, .initSeq), ("flushFramebuffer".toList, .flush)]

/-- The name a table gives a text. -/
def nameIn : List (List Char × Name) → List Char → Option Name
  | [], _ => none
  | (t, n) :: rest, cs => if t = cs then some n else nameIn rest cs

/-- The operations a name with operands stands for (30_encoding.md R96, R97). -/
def build (n : Name) (args : List (List Char)) : Option (List Instr) :=
  match n, args with
  | .setPixel, [x, y, on] => do return [.setPixel (← coord x) (← coord y) (← flag on)]
  | .getPixel, [x, y] => do return [.getPixel (← coord x) (← coord y)]
  | .fillRect, [x1, y1, x2, y2, on, f] => do
      return [.fillRect (← coord x1) (← coord y1) (← coord x2) (← coord y2) (← flag on) (← flag f)]
  | .clear, [f] => do return [.clear (← flag f)]
  | .clear, [] => some Pseudo.clearDefault.expand
  | .writeByte, [d, m] => do return [.writeByte (← byte d) (← mode m)]
  | .powerOn, [] => some [.powerOn]
  | .powerOff, [] => some [.powerOff]
  | .initSeq, [] => some [.initSeq]
  | .flush, [] => some [.flush]
  | .rstAssert, [] => some [.rstAssert]
  | .rstRelease, [] => some [.rstRelease]
  | .bringup, [] => some Pseudo.bringup.expand
  | .rstPulse, [] => some Pseudo.rstPulse.expand
  | .sendCmd, c :: cs => do return (Pseudo.sendCmd (← bytes (c :: cs))).expand
  | _, _ => none

/-- The text inside the parentheses of a call, if the text is one. -/
def callOperands (cs : List Char) : Option (List Char) :=
  match cs with
  | '(' :: rest => if rest.getLast? = some ')' then some rest.dropLast else none
  | _ => none

/-- The operations a line stands for: a mnemonic and its operands, or the document's call; no operation for a blank or
comment line (30_encoding.md R96). -/
def readLine (line : String) : Option (List Instr) :=
  let cs := trim (line.toList.takeWhile (· ≠ ';'))
  let name := cs.takeWhile isLetter
  let rest := cs.dropWhile isLetter
  if cs = [] then some []
  else
    match callOperands (trim rest) with
    | some inner => (nameIn callNames name).bind fun n => build n (operands inner)
    | none =>
      if rest = [] ∨ rest.head?.any isBlank then (nameIn mnemonics name).bind fun n => build n (operands rest)
      else none

end Sys2Proof.Machine.Asm
end

