-- ==== Sys2Proof/Tests/Slice0.lean ====
section
/-! SUPPORT. Tests: well-formedness, decoding of words written out from spec/30_encoding.md, one step of each instruction
against spec/95_test_vectors.md or hand calculation from the rules, and a witness for the hypotheses of each obligation. -/

namespace Sys2Proof.Tests

open Sys2Proof.Machine

/-! ### Helpers -/

/-- Idle lines with every level written out. -/
def idleLines : Pins := { sck := .low, sda := false, cs := .released, dc := .cmd, rst := .released }

/-- A small state: this framebuffer, idle lines, nothing sent, issued or returned. -/
def withFb (m : Memory) : State :=
  { fb := m, pins := idleLines, trace := [], issued := [], returned := [], draws := 0 }

/-- The same with the clock high. -/
def clockHigh : State := { withFb [] with pins := { idleLines with sck := .high } }

/-- The same with chip-select asserted. -/
def selected : State := { withFb [] with pins := { idleLines with cs := .asserted } }

/-- The next state, if there is one. -/
def next? : Host.Outcome State Fault Refusal → Option State
  | .next s => some s
  | .fault _ => none
  | .refused _ => none

/-- The refusal, if there is one. -/
def refusal? : Host.Outcome State Fault Refusal → Option Refusal
  | .next _ => none
  | .fault _ => none
  | .refused r => some r

/-- What a decoder answers, as an option. -/
def ok? : Except Reserved Instr → Option Instr
  | .ok i => some i
  | .error _ => none

/-- Why a word is reserved. -/
def why? : Except Reserved Instr → Option Reserved
  | .ok _ => none
  | .error r => some r

/-- The state for the invariant's witnesses: reset with a known, empty framebuffer. -/
def known : State := { State.reset with fb := [] }

/-! ### Well-formedness: each check refuses an ill-formed term -/

theorem test_wf_setPixel_x : (Instr.setPixel 256 0 true).wellFormed = false := by decide
theorem test_wf_setPixel_y : (Instr.setPixel 0 256 true).wellFormed = false := by decide
theorem test_wf_getPixel_x : (Instr.getPixel 256 0).wellFormed = false := by decide
theorem test_wf_getPixel_y : (Instr.getPixel 0 256).wellFormed = false := by decide
theorem test_wf_fillRect_x1 : (Instr.fillRect 256 0 0 0 true true).wellFormed = false := by decide
theorem test_wf_fillRect_y1 : (Instr.fillRect 0 256 0 0 true true).wellFormed = false := by decide
theorem test_wf_fillRect_x2 : (Instr.fillRect 0 0 256 0 true true).wellFormed = false := by decide
theorem test_wf_fillRect_y2 : (Instr.fillRect 0 0 0 256 true true).wellFormed = false := by decide
theorem test_wf_largest : (Instr.fillRect 255 255 255 255 true true).wellFormed = true := by decide

/-! ### Decoding: words written out bit by bit from 30_encoding.md R92 and R82 -/

theorem test_decode_setPixel :
    ok? (decode (.opw 0b0001010000000101000010100000000000000000#40)) = some (.setPixel 5 10 true) := by decide
theorem test_decode_getPixel :
    ok? (decode (.opw 0b0010000000000101000010110000000000000000#40)) = some (.getPixel 5 11) := by decide
theorem test_decode_fillRect :
    ok? (decode (.opw 0b0011100000000001000000100000001100000100#40)) = some (.fillRect 1 2 3 4 false true) := by decide
theorem test_decode_clear :
    ok? (decode (.opw 0b0100100000000000000000000000000000000000#40)) = some (.clear true) := by decide
theorem test_decode_writeByte :
    ok? (decode (.opw 0b0101001010100101000000000000000000000000#40)) = some (.writeByte 0xA5#8 .data) := by decide
theorem test_decode_powerOn :
    ok? (decode (.opw 0b0110000000000000000000000000000000000000#40)) = some .powerOn := by decide
theorem test_decode_powerOff :
    ok? (decode (.opw 0b0111000000000000000000000000000000000000#40)) = some .powerOff := by decide
theorem test_decode_initSeq :
    ok? (decode (.opw 0b1000000000000000000000000000000000000000#40)) = some .initSeq := by decide
theorem test_decode_flush :
    ok? (decode (.opw 0b1001000000000000000000000000000000000000#40)) = some .flush := by decide
theorem test_decode_rstAssert :
    ok? (decode (.opw 0b1010000000000000000000000000000000000000#40)) = some .rstAssert := by decide
theorem test_decode_rstRelease :
    ok? (decode (.opw 0b1011000000000000000000000000000000000000#40)) = some .rstRelease := by decide
theorem test_decode_frameCmd : ok? (decode (.w9 0b010100101#9)) = some (.frameCmd 0xA5#8) := by decide
theorem test_decode_frameData : ok? (decode (.w9 0b110100101#9)) = some (.frameData 0xA5#8) := by decide

/-- 95_test_vectors.md V73, V74: unassigned operation numbers. -/
theorem test_reserved_op :
    [0x0000000000#40, 0xC000000000#40, 0xD000000000#40, 0xE000000000#40, 0xF000000000#40].map (why? ∘ decodeOpWord) =
      List.replicate 5 (some .unassignedOp) := by decide

/-- 95_test_vectors.md V75 to V81: a field the operation does not use is not zero. -/
theorem test_reserved_field :
    [0x1C050A0000#40, 0x14050A0001#40, 0x1500000000#40, 0x4800000001#40, 0x9800000000#40, 0x54A5000000#40,
      0x2400000000#40].map (why? ∘ decodeOpWord) = List.replicate 7 (some .unusedFieldNotZero) := by decide

/-- 30_encoding.md R92, worked encodings. -/
theorem test_encode_fillRect : encode (.fillRect 0 6 1 9 true false) = .opw 0x3400060109#40 := by decide
theorem test_encode_writeByte : encode (.writeByte 0xA5#8 .cmd) = .opw 0x50A5000000#40 := by decide
theorem test_encode_frameData : encode (.frameData 0xA5#8) = .w9 0x1A5#9 := by decide

/-! ### Steps, from 95_test_vectors.md -/

/-- V3: band 6, column 5 is linear address 773. -/
theorem test_setPixel_sets : (next? (exec (.setPixel 5 10 true) (withFb []))).map State.fb = some [(773, 0x20#8)] := by
  decide

/-- V4: only bit 5 is cleared. -/
theorem test_setPixel_clears :
    (next? (exec (.setPixel 5 10 false) (withFb [(773, 0xFF#8)]))).map State.fb = some [(773, 0xDF#8)] := by decide

/-- V10, V11. -/
theorem test_getPixel_set : (next? (exec (.getPixel 5 10) (withFb [(773, 0x20#8)]))).map State.returned = some [true] := by
  decide
theorem test_getPixel_clear :
    (next? (exec (.getPixel 5 11) (withFb [(773, 0x20#8)]))).map State.returned = some [false] := by decide

/-- V20: rows 6 and 7 are bits 1 and 0 of band 7, rows 8 and 9 bits 7 and 6 of band 6. -/
theorem test_fillRect_bands :
    (next? (exec (.fillRect 0 6 1 9 true false) (withFb []))).map State.fb =
      some [(768, 0xC0#8), (769, 0xC0#8), (896, 0x03#8), (897, 0x03#8)] := by decide

/-- V23, narrowed to two columns in range: clipped pixel by pixel, rows 60 to 63 are bits 3 to 0 of band 0. -/
theorem test_fillRect_clips :
    (next? (exec (.fillRect 126 60 129 65 true false) (withFb []))).map State.fb =
      some [(126, 0x0F#8), (127, 0x0F#8)] := by decide

/-- R114(f): the same rectangle has 2 columns and 4 rows in range; none in range, and an empty one. -/
theorem test_rectCount :
    rectCount 126 60 129 65 = 8 ∧ rectCount 0 0 255 255 = 8192 ∧ rectCount 128 0 255 63 = 0 ∧ rectCount 5 0 4 63 = 0 ∧
      rectCount 5 9 4 2 = 0 := by decide

/-- V29. -/
theorem test_clear_zeroes : (next? (exec (.clear false) (withFb [(5, 0x77#8)]))).map State.fb = some [] := by decide

/-- V42: 0xA5 is 1 0 1 0 0 1 0 1 on SDA, in order, and the frame has 27 drives. -/
theorem test_writeByte_trace :
    (next? (exec (.writeByte 0xA5#8 .cmd) (withFb []))).map State.trace =
      some ([.dc .cmd, .cs .asserted] ++
        [true, false, true, false, false, true, false, true].flatMap (fun b => [.sda b, .sck .high, .sck .low]) ++
        [.cs .released]) := by decide

/-- V45: SDA is left at bit 0. -/
theorem test_writeByte_pins :
    (next? (exec (.writeByte 0x01#8 .data) (withFb []))).map State.pins =
      some { sck := .low, sda := true, cs := .released, dc := .data, rst := .released } := by decide

/-- 93 U4: refused with the clock high. -/
theorem test_writeByte_refused : refusal? (exec (.writeByte 0x01#8 .data) clockHigh) = some .linesNotIdle := by decide

/-- V46, V47: one drive each, the lines of a frame untouched. -/
theorem test_rstAssert :
    (next? (exec .rstAssert (withFb []))).map (fun t => (t.trace, t.pins.rst)) = some ([.rst .asserted], .asserted) := by
  decide
theorem test_rstRelease :
    (next? (exec .rstRelease (withFb []))).map (fun t => (t.trace, t.pins.rst)) = some ([.rst .released], .released) := by
  decide

/-- 30_encoding.md R82: the frame rows differ in the mode line only. -/
theorem test_frameCmd : (next? (exec (.frameCmd 0x80#8) (withFb []))).map (fun t => (t.trace.length, t.pins.dc)) =
    some (27, .cmd) := by decide
theorem test_frameData : (next? (exec (.frameData 0x80#8) (withFb []))).map (fun t => (t.trace.length, t.pins.dc)) =
    some (27, .data) := by decide

/-- V50, V52 with three bytes in place of the open parameter: every byte in CMD mode, in list order (POWERON, POWEROFF,
INITSEQ are this operation on their lists). -/
theorem test_commandList :
    (next? (sendFrames (cmdFrames [0x8D#8, 0x14#8, 0xAF#8]) (withFb []))).map
      (fun t => (t.trace.length, framesFrom idleLines t.trace)) =
      some (81, [(.cmd, 0x8D#8), (.cmd, 0x14#8), (.cmd, 0xAF#8)]) := by decide

/-- P4, the first frames of band 6 of its last flush: three commands, then the two filled bytes. -/
theorem test_bandFrames :
    (bandFrames (fun b => ⟨0xB0#8 + BitVec.ofNat 8 b, [0x00#8, 0x10#8]⟩) [(768, 0xC0#8), (769, 0xC0#8)] 6).take 6 =
      [(.cmd, 0xB6#8), (.cmd, 0x00#8), (.cmd, 0x10#8), (.data, 0xC0#8), (.data, 0xC0#8), (.data, 0x00#8)] := by decide

/-- The operations whose lists are open parameters run from reset, as does FLUSH. -/
theorem test_sequences_run :
    [0x6000000000, 0x7000000000, 0x8000000000, 0x9000000000].map
      (fun w => (next? (step (State.reset.withFetchWord 40 w))).isSome) = [true, true, true, true] := by decide

/-- A frame row runs as the first instruction after reset. -/
theorem test_frame_runs : (next? (step (State.reset.withFetchWord 16 0x1A5))).isSome = true := by decide

/-- A reserved word is refused by its reason. -/
theorem test_reserved_refused :
    refusal? (step (State.reset.withFetchWord 40 0xC000000000)) = some (.reservedWord .unassignedOp) := by decide

/-- P3: the receiver reads two frames from two bytes, a reset-line drive between them aside. -/
theorem test_receiver :
    framesFrom idleLines (frameDrives (.cmd, 0xB3#8) ++ [.rst .asserted] ++ frameDrives (.data, 0x01#8)) =
      [(.cmd, 0xB3#8), (.data, 0x01#8)] := by decide

/-- 10_state.md R25: a repeated level is two equal records of the wave (log 10). -/
theorem test_wave_repeats :
    waveFrom idleLines [.rst .asserted, .rst .asserted] =
      [{ idleLines with rst := .asserted }, { idleLines with rst := .asserted }] := by decide

/-- Decision D18's electrical view: the repeated record is left out (log 10). -/
theorem test_waveChanges :
    changesFrom idleLines (waveFrom idleLines [.rst .asserted, .rst .asserted, .rst .released]) =
      [{ idleLines with rst := .asserted }, idleLines] := by decide

/-! ### Assembly, 30_encoding.md R96, R97 -/

theorem test_asm_mnemonic : Asm.readLine "  SETPIXEL 5, 0x0A, 1 ; a pixel" = some [.setPixel 5 10 true] := by decide
theorem test_asm_call : Asm.readLine "writeByte(0xA5, CMD)" = some [.writeByte 0xA5#8 .cmd] := by decide
theorem test_asm_default : Asm.readLine "clear()" = some [.clear true] := by decide
theorem test_asm_bringup : Asm.readLine "BRINGUP" = some [.rstAssert, .rstRelease, .initSeq, .clear true] := by decide
theorem test_asm_refuses : Asm.readLine "SETPIXEL 5, 256, 1" = none := by decide

/-! ### Witnesses: states and operands that meet the hypotheses of each obligation -/

theorem next_of_isSome {o : Host.Outcome State Fault Refusal} (h : (next? o).isSome = true) : ∃ t, o = .next t := by
  cases o with
  | next t => exact ⟨t, rfl⟩
  | fault r => cases r
  | refused r => simp [next?] at h

/-- Shared by the obligations with premises on FB only. -/
theorem witness_fbWf : (withFb [(773, 0xFF#8)]).fb.wf := by decide

/-- Shared by the obligations with idle lines as their premise. -/
theorem witness_idle : (withFb []).pins.sck = .low ∧ (withFb []).pins.cs = .released := by decide

/-- Shared by the obligations over states with the invariant. -/
theorem witness_inv : Inv known :=
  ⟨Memory.wf_nil, resetPins_idle, rfl, ⟨[], rfl⟩, rfl⟩

theorem witness_PixelIsItsBandBit : (127 : Nat) ≤ 127 ∧ (63 : Nat) ≤ 63 := by decide
theorem witness_PixelMapIsBijective : (63 : Nat) ≤ 63 ∧ (7 : Nat) ≤ 7 ∧ (0 : Nat) ≤ 7 := by decide
theorem witness_ColumnWordHoldsRowsReversed : (127 : Nat) ≤ 127 ∧ (0 : Nat) ≤ 63 := by decide
theorem witness_SetPixelReadModifiesOneByte :
    (withFb [(773, 0xFF#8)]).fb.wf ∧ 5 ≤ 127 ∧ 10 ≤ 63 ∧ (0 ≤ 7 ∧ 0 ≠ 7 - 10 % 8) ∧
      (6 ≤ 7 ∧ 6 ≤ 127 ∧ ¬(6 = 7 - 10 / 8 ∧ 6 = 5)) := by decide
theorem witness_OutOfRangeAccessIsDropped :
    (128 ≤ 128 ∨ 64 ≤ 63) ∧ (128 ≤ 127 ∨ 64 ≤ 64) ∧ inRange 127 63 = true ∧ inRange 128 63 = false ∧
      inRange 127 64 = false := by decide
theorem witness_GetPixelReturnsTheStoredBit : (127 : Nat) ≤ 127 ∧ (63 : Nat) ≤ 63 := by decide
theorem witness_SetThenGetRoundTrip :
    (withFb [(773, 0xFF#8)]).fb.wf ∧ 127 ≤ 127 ∧ 63 ≤ 63 ∧ 5 ≤ 127 ∧ 10 ≤ 63 := by decide
theorem witness_SetPixelsCommute : (withFb [(773, 0xFF#8)]).fb.wf ∧ ((5, 10) : Nat × Nat) ≠ (5, 11) := by decide
theorem witness_FramebufferWritesAreIdempotent : (withFb [(773, 0xFF#8)]).fb.wf ∧ 127 ≤ 127 ∧ 63 ≤ 63 := by decide
theorem witness_FillRectFillsTheClosedRectangle :
    (withFb [(773, 0xFF#8)]).fb.wf ∧ (127 ≤ 127 ∧ 63 ≤ 63) ∧
      ∀ y, y < 64 → 7 - y / 8 = 7 → ¬((0 ≤ 5 ∧ 5 ≤ 9) ∧ (8 ≤ y ∧ y ≤ 9)) := by decide
theorem witness_FillRectIsSetPixelsInAnyOrder :
    (withFb []).fb.wf ∧ ∀ x y, x ≤ 127 → y ≤ 63 →
      ((x, y) ∈ [(2, 1), (1, 1), (200, 1)] ↔ (1 ≤ x ∧ x ≤ 2) ∧ (1 ≤ y ∧ y ≤ 1)) := by
  refine ⟨by decide, fun x y _ _ => ?_⟩
  simp only [List.mem_cons, Prod.mk.injEq, List.not_mem_nil, or_false]
  omega
theorem witness_EmptyRectangleStillFlushes : (4 < 5 ∨ 9 < 5) ∧ (5 < 5 ∨ 8 < 9) := by decide
theorem witness_ClearZeroesEveryByte : (withFb [(5, 0x77#8)]).fb.wf ∧ 7 ≤ 7 ∧ 127 ≤ 127 ∧ 63 ≤ 63 := by decide
theorem witness_ClearIsAFullFill : (withFb [(5, 0x77#8)]).fb.wf := by decide
theorem witness_FlushOperandFlushesAfterTheWrites : (withFb []).pins.idle = true := by decide
theorem witness_FilledRectangleCountsItsPixels :
    (withFb [(5, 0x77#8)]).fb.wf ∧ (127 ≤ 127 ∧ 63 ≤ 63) ∧ ¬(128 ≤ 127 ∧ 63 ≤ 63) := by decide
theorem witness_WriteByteDrivesItsFrame : (withFb []).pins.sck = .low ∧ (withFb []).pins.cs = .released := by decide
theorem witness_FrameRowsPutOneFrameOnTheWire :
    (withFb []).pins.sck = .low ∧ (withFb []).pins.cs = .released := by decide

/-- Busy in each of the two ways, an operation with a frame to send and one without. -/
theorem witness_RefusedExactlyWhenLinesAreBusy :
    ¬(clockHigh.pins.sck = .low ∧ clockHigh.pins.cs = .released) ∧
      ¬(selected.pins.sck = .low ∧ selected.pins.cs = .released) ∧
      framesSent [] (.writeByte 0#8 .cmd) ≠ [] ∧ framesSent [] .rstAssert = [] := by decide
theorem witness_ResetLineIsActiveLow :
    exec .rstAssert (withFb []) = .next ((withFb []).drive (.rst .asserted)) ∧
      exec .rstRelease (withFb []) = .next ((withFb []).drive (.rst .released)) := ⟨rfl, rfl⟩
theorem witness_ReceiverReadsEachFrame : idleLines.sck = .low ∧ idleLines.cs = .released := by decide
theorem witness_ReceiverReadsExactlyTheFramesSent :
    Inv known ∧ ∃ t, exec (.writeByte 0xA5#8 .data) known = .next t :=
  ⟨witness_inv, next_of_isSome (by decide)⟩
theorem witness_TraceGrowsByTheOperationsDrives : ∃ s t, exec .rstAssert s = .next t := ⟨withFb [], _, rfl⟩
theorem witness_WaveEndsAtThePins : ∃ s, Inv s ∧ s.trace ≠ [] :=
  ⟨known.drive (.rst .asserted), ⟨Memory.wf_nil, resetPins_idle, rfl, ⟨[], rfl⟩, rfl⟩, by simp⟩
theorem witness_OnlyResetLineOperationsDriveRst :
    Instr.writeByte 0#8 .cmd ≠ .rstAssert ∧ Instr.writeByte 0#8 .cmd ≠ .rstRelease ∧
      ∃ t, exec (.writeByte 0#8 .cmd) (withFb []) = .next t :=
  ⟨by decide, by decide, next_of_isSome (by decide)⟩
theorem witness_EveryDriveObeysTheBusRules :
    (withFb []).pins.sck = .low ∧ (withFb []).pins.cs = .released ∧
      ∃ t ds, exec (.writeByte 0x5A#8 .cmd) (withFb []) = .next t ∧ t.trace = (withFb []).trace ++ ds := by
  obtain ⟨t, h⟩ := next_of_isSome (o := exec (.writeByte 0x5A#8 .cmd) (withFb [])) (by decide)
  exact ⟨rfl, rfl, t, t.trace, h, rfl⟩
theorem witness_CommandSequencesSendTheirLists :
    (Instr.powerOff, Config.powerOffSeq) ∈
      [(Instr.powerOn, Config.powerOnSeq), (Instr.powerOff, Config.powerOffSeq), (Instr.initSeq, Config.initSeq)] ∧
      (withFb []).pins.sck = .low ∧ (withFb []).pins.cs = .released := ⟨by simp, rfl, rfl⟩
theorem witness_FlushSendsEveryBand : (withFb []).pins.sck = .low ∧ (withFb []).pins.cs = .released := by decide
theorem witness_FlushFramePositions :
    (∀ k, k ≤ 7 → (ByteList1.mk (0xB0#8 + BitVec.ofNat 8 k) [0x00#8, 0x10#8]).toList.length = 3) ∧ 7 ≤ 7 ∧
      127 ≤ 127 := ⟨fun _ _ => rfl, by decide⟩
theorem witness_SentIsTheFramebufferAfterAFlush :
    Inv known ∧ ∃ t, exec .flush known = .next t :=
  ⟨witness_inv, next_of_isSome (by decide)⟩
theorem witness_SentIsTheFramebufferAfterAFlush_operands :
    (∃ t, exec (.clear true) known = .next t) ∧ ∃ t, exec (.fillRect 3 3 3 3 true true) known = .next t :=
  ⟨next_of_isSome (by decide), next_of_isSome (by decide)⟩
theorem witness_DisplayIsStaleUntilFlushed :
    ∃ s t, Inv s ∧ exec (.setPixel 127 7 true) s = .next t ∧ framesSent s.fb (.setPixel 127 7 true) = [] :=
  ⟨known, _, witness_inv, rfl, rfl⟩
theorem witness_EveryOperationCompletes : (withFb []).pins.sck = .low ∧ (withFb []).pins.cs = .released := by decide
theorem witness_OnlyThreeOperationsWriteTheFramebuffer :
    (∃ t, exec .rstAssert (withFb []) = .next t) ∧ (∀ x y on, Instr.rstAssert ≠ .setPixel x y on) ∧
      (∀ x1 y1 x2 y2 on f, Instr.rstAssert ≠ .fillRect x1 y1 x2 y2 on f) ∧ ∀ f, Instr.rstAssert ≠ .clear f :=
  ⟨⟨_, rfl⟩, by simp, by simp, by simp⟩
theorem witness_OnlyGetPixelReturnsAValue :
    (∃ t, exec (.getPixel 5 10) (withFb []) = .next t) ∧ (∃ t, exec .rstAssert (withFb []) = .next t) ∧
      ∀ x y, Instr.rstAssert ≠ .getPixel x y := ⟨⟨_, rfl⟩, ⟨_, rfl⟩, by simp⟩
theorem witness_StepPerformsTheDecodedInstruction :
    (∃ s w ws i, State.issued s = w :: ws ∧ decode w = .ok i) ∧ (∃ i, decodeTableWord 40 0xA000000000 = some i) ∧
      (withFb []).issued = [] :=
  ⟨⟨(withFb []).issueFirst (.opw 0xA000000000#40), _, _, .rstAssert, rfl, rfl⟩, ⟨.rstAssert, by decide⟩, rfl⟩
theorem witness_ReservedWordsAreRefused :
    ∃ s w ws why, State.issued s = w :: ws ∧ decode w = .error why :=
  ⟨(withFb []).issueFirst (.opw 0#40), _, _, .unassignedOp, rfl, rfl⟩
theorem witness_StepKeepsTheInvariant : ∃ s t, Inv s ∧ step s = .next t := ⟨known, _, witness_inv, rfl⟩
theorem witness_ReachableStatesNeverRefuseForBusyLines : ∃ s, Reachable s := ⟨_, Reachable.reset []⟩
theorem witness_ResetState : (7 : Nat) ≤ 7 ∧ (127 : Nat) ≤ 127 := by decide
theorem witness_BringupLeavesADeterminedState : ∃ s, Inv s := ⟨known, witness_inv⟩
theorem witness_SmallStepsAgreeWithBigStep :
    ∃ s t : State, s.fb.wf ∧ exec (.setPixel 5 10 true) s = .next t := ⟨withFb [], _, by decide, rfl⟩
theorem witness_EventCounts :
    ∃ P n, P = ((List.range 8).map fun b => (Config.pageCmd b).toList.length).sum ∧
      n = ((rectPixels 126 60 129 65).filter fun p => inRange p.1 p.2).length := ⟨_, _, rfl, rfl⟩
theorem witness_DecodeAfterEncode : (Instr.fillRect 255 0 128 63 true false).wellFormed = true := by decide
theorem witness_EncodeAfterDecode :
    decode (.opw 0xA000000000#40) = .ok .rstAssert ∧ decode (.w9 0x1A5#9) = .ok (.frameData 0xA5#8) := ⟨rfl, rfl⟩
theorem witness_WordDecodesExactlyWhenItSelectsARow :
    opRows[0]? = some (0x1000000000#40, 0xFB0000FFFF#40) ∧
      selectsRow 0x14050A0000#40 (0x1000000000#40, 0xFB0000FFFF#40) = true := by decide
theorem witness_OutOfRangeCoordinatesAreLegalWords :
    128 ≤ 255 ∧ 63 ≤ 255 ∧ (128 ≤ 128 ∨ 64 ≤ 63) ∧
      ∃ s ws, State.issued s = encode (.setPixel 128 63 true) :: ws :=
  ⟨by decide, by decide, by decide, (withFb []).issueFirst _, [], rfl⟩

end Sys2Proof.Tests
end

section
/-! SUPPORT. What an operation does, said once for all thirteen instructions: the framebuffer it leaves, the drives it
makes, what it gives the host, and the one condition under which it is refused. -/

namespace Sys2Proof.Machine

/-! ### The effects of an operation -/

/-- The framebuffer an operation leaves (40_framebuffer_ops.md R110, R112, R113; 10_state.md R22). -/
def fbAfter (m : Memory) : Instr → Memory
  | .setPixel x y on => pixWrite m x y on
  | .fillRect x1 y1 x2 y2 on _ => fillPixels on (rectPixels x1 y1 x2 y2) m
  | .clear _ => zeroFb
  | .getPixel _ _ | .writeByte _ _ | .powerOn | .powerOff | .initSeq | .flush | .rstAssert | .rstRelease
  | .frameCmd _ | .frameData _ => m

/-- The drives of the reset line an operation makes (41_serializer_ops.md R131, R132). -/
def rstDrives : Instr → List Drive
  | .rstAssert => [.rst .asserted]
  | .rstRelease => [.rst .released]
  | .setPixel _ _ _ | .getPixel _ _ | .fillRect _ _ _ _ _ _ | .clear _ | .writeByte _ _ | .powerOn | .powerOff
  | .initSeq | .flush | .frameCmd _ | .frameData _ => []

/-- Every drive an operation makes, from the framebuffer it starts with. No operation makes drives of both kinds. -/
def drivesOf (m : Memory) (i : Instr) : List Drive := rstDrives i ++ (framesSent m i).flatMap frameDrives

/-- The state with what the operation returns given to the host: GETPIXEL alone returns something (10_state.md R29). -/
def giveAnswer : Instr → State → State
  | .getPixel x y, s => if inRange x y then s.giveBit (pix s.fb x y) else s.giveFreeBit
  | .setPixel _ _ _, s | .fillRect _ _ _ _ _ _, s | .clear _, s | .writeByte _ _, s | .powerOn, s | .powerOff, s
  | .initSeq, s | .flush, s | .rstAssert, s | .rstRelease, s | .frameCmd _, s | .frameData _, s => s

/-- The state a completed operation leaves. -/
def stateAfter (i : Instr) (s : State) : State :=
  giveAnswer i ((s.setFb (fbAfter s.fb i)).driveAll (drivesOf s.fb i))

theorem sendFrames_eq (fs : List Frame) (s : State) :
    sendFrames fs s =
      if s.pins.idle = true ∨ fs = [] then .next (s.driveAll (fs.flatMap frameDrives))
      else .refused .linesNotIdle := by
  simp only [sendFrames, Bool.or_eq_true, List.isEmpty_iff]

theorem flushIf_eq_sendFrames (f : Bool) (s : State) :
    flushIf f s = sendFrames (if f then flushFrames Config.pageCmd s.fb else []) s := by
  cases f
  · simp [flushIf_false]
  · simp [flushIf_true]

/-- All that an operation can do: it completes as a whole, or, with a frame to send and the lines busy, is refused as a
whole (41_serializer_ops.md R130, decision D9; log 12). -/
theorem exec_eq (i : Instr) (s : State) :
    exec i s =
      if s.pins.idle = true ∨ framesSent s.fb i = [] then .next (stateAfter i s) else .refused .linesNotIdle := by
  cases i with
  | setPixel | rstAssert | rstRelease => exact (if_pos (.inr rfl)).symm
  | getPixel x y =>
    rw [exec_getPixel, ← apply_ite Host.Outcome.next]
    exact (if_pos (.inr rfl)).symm
  | fillRect | clear => exact (flushIf_eq_sendFrames _ _).trans (sendFrames_eq _ _)
  | writeByte | powerOn | powerOff | initSeq | flush | frameCmd | frameData => exact sendFrames_eq _ s

theorem exec_next_iff {i : Instr} {s t : State} :
    exec i s = .next t ↔ (s.pins.idle = true ∨ framesSent s.fb i = []) ∧ stateAfter i s = t := by
  rw [exec_eq]
  split <;> simp [*]

/-- From idle lines every operation completes (60_exceptions.md R173). -/
theorem exec_of_idle {s : State} (h : s.pins.idle = true) (i : Instr) : exec i s = .next (stateAfter i s) :=
  exec_next_iff.2 ⟨.inl h, rfl⟩

/-! ### The fields of the state an operation leaves -/

section
variable (i : Instr) (s : State)

/-- What is given to the host touches nothing of the block, nor the stream. -/
theorem giveAnswer_eq : ∃ bs n, giveAnswer i s = { s with returned := bs, draws := n } := by
  cases i with
  | getPixel x y => rw [giveAnswer]; split <;> exact ⟨_, _, rfl⟩
  | _ => exact ⟨_, _, rfl⟩

theorem giveAnswer_of_not_getPixel (h : ∀ x y, i ≠ .getPixel x y) : giveAnswer i s = s := by
  cases i with
  | getPixel x y => exact absurd rfl (h x y)
  | _ => rfl

theorem giveAnswer_getPixel_returned (x y : Nat) :
    ∃ b, (giveAnswer (.getPixel x y) s).returned = s.returned ++ [b] := by
  rw [giveAnswer]
  split <;> exact ⟨_, rfl⟩

theorem stateAfter_eq :
    ∃ bs n, stateAfter i s =
      { (s.setFb (fbAfter s.fb i)).driveAll (drivesOf s.fb i) with returned := bs, draws := n } :=
  giveAnswer_eq i _

@[simp] theorem stateAfter_fb : (stateAfter i s).fb = fbAfter s.fb i := by
  obtain ⟨bs, n, h⟩ := stateAfter_eq i s; simp [h]

@[simp] theorem stateAfter_pins : (stateAfter i s).pins = (drivesOf s.fb i).foldl Pins.set s.pins := by
  obtain ⟨bs, n, h⟩ := stateAfter_eq i s; simp [h]

@[simp] theorem stateAfter_trace : (stateAfter i s).trace = s.trace ++ drivesOf s.fb i := by
  obtain ⟨bs, n, h⟩ := stateAfter_eq i s; simp [h]

@[simp] theorem stateAfter_issued : (stateAfter i s).issued = s.issued := by
  obtain ⟨bs, n, h⟩ := stateAfter_eq i s; simp [h]

theorem stateAfter_of_not_getPixel (h : ∀ x y, i ≠ .getPixel x y) :
    stateAfter i s = (s.setFb (fbAfter s.fb i)).driveAll (drivesOf s.fb i) :=
  giveAnswer_of_not_getPixel i _ h

theorem stateAfter_getPixel_returned (x y : Nat) :
    ∃ b, (stateAfter (.getPixel x y) s).returned = s.returned ++ [b] := by
  obtain ⟨b, hb⟩ := giveAnswer_getPixel_returned
    ((s.setFb (fbAfter s.fb (.getPixel x y))).driveAll (drivesOf s.fb (.getPixel x y))) x y
  exact ⟨b, hb.trans (by simp)⟩
end

/-! ### The framebuffer an operation leaves -/

theorem wf_fbAfter {m : Memory} (hm : m.wf) (i : Instr) : Memory.wf (fbAfter m i) := by
  cases i with
  | setPixel x y on => exact wf_pixWrite hm x y on
  | fillRect x1 y1 x2 y2 on f => exact wf_fillPixels hm on _
  | clear f => exact wf_zeroFb
  | _ => exact hm

/-- Only SETPIXEL, FILLRECT and CLEAR write the framebuffer (10_state.md R22). -/
theorem fbAfter_eq_self (m : Memory) {i : Instr} (hs : ∀ x y on, i ≠ .setPixel x y on)
    (hr : ∀ x1 y1 x2 y2 on f, i ≠ .fillRect x1 y1 x2 y2 on f) (hc : ∀ f, i ≠ .clear f) : fbAfter m i = m := by
  cases i with
  | setPixel x y on => exact absurd rfl (hs x y on)
  | fillRect x1 y1 x2 y2 on f => exact absurd rfl (hr x1 y1 x2 y2 on f)
  | clear f => exact absurd rfl (hc f)
  | _ => rfl

/-! ### The drives of an operation -/

theorem length_rstDrives (i : Instr) : (rstDrives i).length = if i = .rstAssert ∨ i = .rstRelease then 1 else 0 := by
  cases i <;> rfl

theorem length_drivesOf (m : Memory) (i : Instr) :
    (drivesOf m i).length = 27 * (framesSent m i).length + if i = .rstAssert ∨ i = .rstRelease then 1 else 0 := by
  rw [drivesOf, List.length_append, length_rstDrives, flatMap_frameDrives_length, Nat.add_comm]

theorem rstDrives_eq_nil {i : Instr} (ha : i ≠ .rstAssert) (hr : i ≠ .rstRelease) : rstDrives i = [] := by
  cases i with
  | rstAssert => exact absurd rfl ha
  | rstRelease => exact absurd rfl hr
  | _ => rfl

/-- Without an operation of the reset line the drives are those of frames alone. -/
theorem drivesOf_eq_frames (m : Memory) {i : Instr} (ha : i ≠ .rstAssert) (hr : i ≠ .rstRelease) :
    drivesOf m i = (framesSent m i).flatMap frameDrives := by
  rw [drivesOf, rstDrives_eq_nil ha hr, List.nil_append]

theorem filter_inFrame_frames (fs : List Frame) :
    (fs.flatMap frameDrives).filter Drive.inFrame = fs.flatMap frameDrives := by
  induction fs with
  | nil => rfl
  | cons f fs ih =>
    rw [List.flatMap_cons, List.filter_append, ih]
    simp [frameDrives, bitDrives, Drive.inFrame, Drive.pin]

/-- The drives of frames are of the other four lines. -/
theorem filter_rst_frames (fs : List Frame) : (fs.flatMap frameDrives).filter (fun d => d.pin = .rst) = [] := by
  rw [← filter_inFrame_frames, List.filter_filter]
  simp [Drive.inFrame]

theorem filter_inFrame_rstDrives (i : Instr) : (rstDrives i).filter Drive.inFrame = [] := by
  cases i <;> rfl

/-- Less the reset line's drives, an operation's drives are its frames (41_serializer_ops.md R134). -/
theorem filter_inFrame_drivesOf (m : Memory) (i : Instr) :
    (drivesOf m i).filter Drive.inFrame = (framesSent m i).flatMap frameDrives := by
  rw [drivesOf, List.filter_append, filter_inFrame_rstDrives, filter_inFrame_frames, List.nil_append]

/-- A drive of the reset line keeps the lines idle. -/
theorem idle_after_rstDrives {p : Pins} (hp : p.idle = true) (i : Instr) :
    ((rstDrives i).foldl Pins.set p).idle = true := by
  cases i <;> exact hp

/-- Every operation leaves idle lines idle (10_state.md R24). -/
theorem idle_after_drivesOf {p : Pins} (hp : p.idle = true) (m : Memory) (i : Instr) :
    ((drivesOf m i).foldl Pins.set p).idle = true := by
  rw [drivesOf, List.foldl_append]
  exact idle_after_frames (idle_after_rstDrives hp i) _

/-! ### The rules of the bus -/

theorem busLegal_append (p : Pins) (ds es : List Drive) :
    busLegal p (ds ++ es) = (busLegal p ds && busLegal (ds.foldl Pins.set p) es) := by
  induction ds generalizing p with
  | nil => rfl
  | cons d ds ih => simp [busLegal, ih, Bool.and_assoc]

theorem busLegal_frame {p : Pins} (hp : p.idle = true) (f : Frame) : busLegal p (frameDrives f) = true := by
  obtain ⟨hsck, hcs⟩ := Pins.idle_iff.1 hp
  simp [frameDrives, bitDrives, busLegal, busRule, hsck, hcs]

theorem busLegal_frames {p : Pins} (hp : p.idle = true) (fs : List Frame) :
    busLegal p (fs.flatMap frameDrives) = true := by
  induction fs generalizing p with
  | nil => rfl
  | cons f fs ih =>
    rw [List.flatMap_cons, busLegal_append, busLegal_frame hp, Bool.true_and]
    exact ih (by simpa using idle_after_frames hp [f])

theorem busLegal_rstDrives {p : Pins} (hp : p.idle = true) (i : Instr) : busLegal p (rstDrives i) = true := by
  obtain ⟨-, hcs⟩ := Pins.idle_iff.1 hp
  cases i <;> simp [rstDrives, busLegal, busRule, hcs]

/-- From idle lines every drive of an operation obeys the rules of the bus (41_serializer_ops.md R134). -/
theorem busLegal_drivesOf {p : Pins} (hp : p.idle = true) (m : Memory) (i : Instr) :
    busLegal p (drivesOf m i) = true := by
  rw [drivesOf, busLegal_append, busLegal_rstDrives hp, busLegal_frames (idle_after_rstDrives hp i), Bool.true_and]

/-! ### A step -/

/-- All that a step can answer with a next state: nothing was issued, or the next word's instruction was performed. -/
theorem step_next_cases {s t : State} (h : step s = .next t) :
    (s.issued = [] ∧ t = s) ∨
      ∃ w ws i, s.issued = w :: ws ∧ decode w = .ok i ∧ exec i { s with issued := ws } = .next t := by
  cases hs : s.issued with
  | nil =>
    rw [step_nil hs] at h
    exact .inl ⟨rfl, (Host.Outcome.next.inj h).symm⟩
  | cons w ws =>
    rw [step_cons hs] at h
    cases hd : decode w with
    | ok i => exact .inr ⟨w, ws, i, rfl, hd, by simpa only [hd] using h⟩
    | error why => simp [hd] at h

theorem step_of_decode {s : State} {w : HostWord} {ws : List HostWord} {i : Instr} (hs : s.issued = w :: ws)
    (hd : decode w = .ok i) : step s = exec i { s with issued := ws } := by
  simp only [step_cons hs, hd]

/-- A table word that decodes stands at the head of the stream when it is placed there (log 8). -/
theorem withFetchWord_of_decode (s : State) {nbits w : Nat} {i : Instr} (h : decodeTableWord nbits w = some i) :
    ∃ hw, decode hw = .ok i ∧ s.withFetchWord nbits w = s.issueFirst hw := by
  unfold decodeTableWord at h
  split at h
  · cases h
  · next hw hhw =>
    split at h
    · next j hd =>
      cases h
      exact ⟨hw, hd, by simp only [State.withFetchWord, hhw]⟩
    · cases h

end Sys2Proof.Machine
end

section
/-! PROOFS. What an operation may change (10_state.md R22, R23, R25, R27, R29, R34): the trace, the reset line, the
framebuffer, the host's side. -/

namespace Sys2Proof.Machine

/-- Settles O24: the drives are those of `drivesOf`. -/
theorem traceGrowsByTheOperationsDrives : Obligations.TraceGrowsByTheOperationsDrives := by
  intro i s t h
  obtain ⟨-, rfl⟩ := exec_next_iff.1 h
  exact ⟨drivesOf s.fb i, stateAfter_trace i s, stateAfter_pins i s, length_drivesOf s.fb i⟩

theorem length_waveFrom (p : Pins) (ds : List Drive) : (waveFrom p ds).length = ds.length := by
  induction ds generalizing p with
  | nil => rfl
  | cons d ds ih => simp [waveFrom, ih]

/-- A wave, its starting lines put in front, ends in the lines all its drives leave. -/
theorem getLast?_cons_waveFrom (p : Pins) (ds : List Drive) :
    (p :: waveFrom p ds).getLast? = some (ds.foldl Pins.set p) := by
  induction ds generalizing p with
  | nil => rfl
  | cons d ds ih => rw [waveFrom, List.getLast?_cons_cons, ih, List.foldl_cons]

/-- Settles O25: the lines are the reset lines after every drive of the trace. -/
theorem waveEndsAtThePins : Obligations.WaveEndsAtThePins := by
  intro s hs hne
  refine ⟨length_waveFrom _ _, ?_⟩
  obtain ⟨d, ds, htr⟩ := List.exists_cons_of_ne_nil hne
  rw [hs.lastDriven, htr]
  exact getLast?_cons_waveFrom _ ds

/-- Settles O26: the drives are those of frames, and no drive of a frame is of the reset line. -/
theorem onlyResetLineOperationsDriveRst : Obligations.OnlyResetLineOperationsDriveRst := by
  intro i s t ha hr h
  obtain ⟨-, rfl⟩ := exec_next_iff.1 h
  rw [stateAfter_pins, stateAfter_trace, drivesOf_eq_frames s.fb ha hr, List.filter_append, filter_rst_frames,
    List.append_nil]
  exact ⟨rst_after_frames _ _, rfl⟩

/-- Settles O37: the framebuffer left is `fbAfter`, unchanged for every other instruction. -/
theorem onlyThreeOperationsWriteTheFramebuffer : Obligations.OnlyThreeOperationsWriteTheFramebuffer := by
  intro i s t h hs hr hc
  obtain ⟨-, rfl⟩ := exec_next_iff.1 h
  rw [stateAfter_fb, fbAfter_eq_self s.fb hs hr hc]

/-- Settles O38: only GETPIXEL gives the host an answer, and none touches the stream. -/
theorem onlyGetPixelReturnsAValue : Obligations.OnlyGetPixelReturnsAValue := by
  intro i s t h
  obtain ⟨-, rfl⟩ := exec_next_iff.1 h
  refine ⟨stateAfter_issued i s, fun hi => ?_, ?_⟩
  · simp [stateAfter_of_not_getPixel i s hi]
  · rintro x y rfl
    exact stateAfter_getPixel_returned s x y

/-- Settles O39: a placed table word is the word the step takes. -/
theorem stepPerformsTheDecodedInstruction : Obligations.StepPerformsTheDecodedInstruction := by
  refine ⟨fun s w ws i => step_of_decode, fun s nbits w i h => ?_, fun s => step_nil⟩
  obtain ⟨hw, hd, hplaced⟩ := withFetchWord_of_decode s h
  rw [hplaced]
  exact step_of_decode (State.issueFirst_issued s hw) hd

end Sys2Proof.Machine
end

section
/-! PROOFS. The invariant between operations: every operation and every step keeps it, so every state a run reaches has
it (10_state.md R20, R22 to R25; 41_serializer_ops.md R134). -/

namespace Sys2Proof.Machine

/-- The invariant says nothing of the host's stream. -/
theorem Inv.withIssued {s : State} (hs : Inv s) (ws : List HostWord) : Inv { s with issued := ws } :=
  { fbWf := hs.fbWf, linesIdle := hs.linesIdle, lastDriven := hs.lastDriven, wholeFrames := hs.wholeFrames,
    legal := hs.legal }

theorem inv_reset : Inv State.reset :=
  { fbWf := wf_resetFb, linesIdle := resetPins_idle, lastDriven := rfl, wholeFrames := ⟨[], rfl⟩, legal := rfl }

/-- Every operation keeps the invariant. -/
theorem exec_keeps_inv {i : Instr} {s t : State} (hs : Inv s) (h : exec i s = .next t) : Inv t := by
  obtain ⟨-, rfl⟩ := exec_next_iff.1 h
  obtain ⟨fs, hfs⟩ := hs.wholeFrames
  have hlast := hs.lastDriven
  refine { fbWf := ?_, linesIdle := ?_, lastDriven := ?_, wholeFrames := ⟨fs ++ framesSent s.fb i, ?_⟩, legal := ?_ }
  · rw [stateAfter_fb]; exact wf_fbAfter hs.fbWf i
  · rw [stateAfter_pins]; exact idle_after_drivesOf hs.linesIdle s.fb i
  · rw [stateAfter_pins, stateAfter_trace, List.foldl_append, ← hlast]
  · rw [stateAfter_trace, List.filter_append, hfs, filter_inFrame_drivesOf, List.flatMap_append]
  · rw [stateAfter_trace, busLegal_append, hs.legal, ← hlast, busLegal_drivesOf hs.linesIdle, Bool.true_and]

theorem step_keeps_inv {s t : State} (hs : Inv s) (h : step s = .next t) : Inv t := by
  obtain ⟨-, rfl⟩ | ⟨w, ws, i, -, -, hex⟩ := step_next_cases h
  · exact hs
  · exact exec_keeps_inv (hs.withIssued ws) hex

/-- Settles O41: a step is nothing, or an operation, which keeps the invariant. -/
theorem stepKeepsTheInvariant : Obligations.StepKeepsTheInvariant := fun _ _ => step_keeps_inv

theorem Reachable.inv {s : State} (h : Reachable s) : Inv s := by
  induction h with
  | reset ws => exact inv_reset.withIssued ws
  | step s t _ hstep ih => exact step_keeps_inv ih hstep

/-- From idle lines a step is refused for a reserved word only. -/
theorem step_ne_linesNotIdle {s : State} (hp : s.pins.idle = true) : step s ≠ .refused .linesNotIdle := by
  cases hs : s.issued with
  | nil => simp [step_nil hs]
  | cons w ws =>
    rw [step_cons hs]
    cases hd : decode w with
    | ok i => simp [exec_of_idle (s := { s with issued := ws }) hp i]
    | error why => simp

/-- Settles O43: the invariant, which every reachable state has, leaves the lines idle. -/
theorem reachableStatesNeverRefuseForBusyLines : Obligations.ReachableStatesNeverRefuseForBusyLines :=
  fun _ h => ⟨h.inv, step_ne_linesNotIdle h.inv.linesIdle⟩

end Sys2Proof.Machine
end

section
/-! PROOFS. The small-step view agrees with `exec` (10_state.md R28, decision D20): the events of an operation, happening
one after the other, write its framebuffer and make its drives. -/

namespace Sys2Proof.Machine

/-- The events of a list happen one after the other. -/
def applyEvents (es : List Event) (s : State) : State := es.foldl Event.apply s

@[simp] theorem applyEvents_nil (s : State) : applyEvents [] s = s := rfl

@[simp] theorem applyEvents_cons (e : Event) (es : List Event) (s : State) :
    applyEvents (e :: es) s = applyEvents es (e.apply s) := rfl

theorem applyEvents_append (es es' : List Event) (s : State) :
    applyEvents (es ++ es') s = applyEvents es' (applyEvents es s) := List.foldl_append

/-- So many small steps make the first so many events happen and leave the others. -/
theorem smalls_eq (n : Nat) (q : InProgress) :
    q.smalls n = { block := applyEvents (q.remaining.take n) q.block, remaining := q.remaining.drop n } := by
  induction n generalizing q with
  | zero => rfl
  | succ n ih =>
    obtain ⟨s, es⟩ := q
    rw [InProgress.smalls, ih]
    cases es <;> simp [InProgress.small]

/-- Events only add to the trace. -/
theorem trace_applyEvents_extends (es : List Event) (s : State) : s.trace <+: (applyEvents es s).trace := by
  induction es generalizing s with
  | nil => exact ⟨[], List.append_nil _⟩
  | cons e es ih =>
    refine List.IsPrefix.trans ?_ (ih (e.apply s))
    cases e with
    | read b c => exact ⟨[], List.append_nil _⟩
    | write b c v => exact ⟨[], List.append_nil _⟩
    | drive d => exact ⟨[d], rfl⟩

theorem trace_applyEvents_take_extends (n : Nat) (es : List Event) (s : State) :
    (applyEvents (es.take n) s).trace <+: (applyEvents es s).trace :=
  calc (applyEvents (es.take n) s).trace
    _ <+: (applyEvents (es.drop n) (applyEvents (es.take n) s)).trace := trace_applyEvents_extends _ _
    _ = (applyEvents es s).trace := by rw [← applyEvents_append, List.take_append_drop]

/-! ### Events that drive -/

theorem applyEvents_frameEvents (fs : List Frame) (s : State) :
    applyEvents (frameEvents fs) s = s.driveAll (fs.flatMap frameDrives) := by
  simp only [applyEvents, frameEvents, List.foldl_map, Event.apply, State.driveAll]

/-- If each part of a list of events makes that part's drives, the whole makes the whole's. -/
theorem applyEvents_flatMap {α : Type} {ev : α → List Event} {dr : α → List Drive}
    (h : ∀ a s, applyEvents (ev a) s = s.driveAll (dr a)) (l : List α) (s : State) :
    applyEvents (l.flatMap ev) s = s.driveAll (l.flatMap dr) := by
  induction l generalizing s with
  | nil => rfl
  | cons a l ih => rw [List.flatMap_cons, applyEvents_append, h, ih, List.flatMap_cons, State.driveAll_append]

/-- A byte of a flush read and sent. -/
theorem applyEvents_readThenFrame (b c : Nat) (f : Frame) (s : State) :
    applyEvents (.read b c :: frameEvents [f]) s = s.driveAll (frameDrives f) := by
  rw [applyEvents_cons, applyEvents_frameEvents, List.flatMap_singleton, Event.apply]

theorem applyEvents_flushEvents (page : Nat → ByteList1) (m : Memory) (s : State) :
    applyEvents (flushEvents page m) s = s.driveAll ((flushFrames page m).flatMap frameDrives) := by
  rw [flushFrames, List.flatMap_assoc]
  refine applyEvents_flatMap (fun b s => ?_) _ s
  rw [applyEvents_append, applyEvents_frameEvents, bandFrames, List.flatMap_append, State.driveAll_append,
    List.flatMap_map]
  exact applyEvents_flatMap (fun c s => applyEvents_readThenFrame b c _ s) _ _

theorem applyEvents_flushIfEvents (f : Bool) (m : Memory) (s : State) :
    applyEvents (flushIfEvents f m) s =
      s.driveAll ((if f then flushFrames Config.pageCmd m else []).flatMap frameDrives) := by
  cases f
  · rfl
  · exact applyEvents_flushEvents _ m s

/-! ### Events that write -/

theorem applyEvents_pixEvents (x y : Nat) (on : Bool) (s : State) :
    applyEvents (pixEvents s.fb x y on) s = s.setFb (pixWrite s.fb x y on) := by
  unfold pixEvents pixWrite
  split <;> rfl

theorem applyEvents_fillEvents (on : Bool) (ps : List (Nat × Nat)) (s : State) :
    applyEvents (fillEvents on ps s.fb) s = s.setFb (fillPixels on ps s.fb) := by
  induction ps generalizing s with
  | nil => rfl
  | cons p ps ih =>
    rw [fillEvents, applyEvents_append, applyEvents_pixEvents]
    exact ih (s.setFb (pixWrite s.fb p.1 p.2 on))

theorem applyEvents_zeroWrites (ps : List (Nat × Nat)) (s : State) :
    applyEvents (ps.map fun p => .write p.1 p.2 0x00#8) s =
      s.setFb (ps.foldl (fun m p => fbWrite m p.1 p.2 0x00#8) s.fb) := by
  induction ps generalizing s with
  | nil => rfl
  | cons p ps ih => exact ih (s.setFb (fbWrite s.fb p.1 p.2 0x00#8))

/-! ### A whole operation -/

/-- All the events of an operation: its framebuffer written, its drives made. -/
theorem applyEvents_events {s : State} (hs : s.fb.wf) (i : Instr) :
    applyEvents (events s.fb i) s = (s.setFb (fbAfter s.fb i)).driveAll (drivesOf s.fb i) := by
  cases i with
  | setPixel x y on => exact applyEvents_pixEvents x y on s
  | getPixel x y =>
    rw [events]
    split <;> rfl
  | fillRect x1 y1 x2 y2 on f =>
    rw [events, applyEvents_append, applyEvents_fillEvents]
    exact applyEvents_flushIfEvents f _ _
  | clear f =>
    rw [events, applyEvents_append, applyEvents_zeroWrites, zeroWrites_eq_zeroFb hs]
    exact applyEvents_flushIfEvents f _ _
  | writeByte | powerOn | powerOff | initSeq | frameCmd | frameData => exact applyEvents_frameEvents _ s
  | flush => exact applyEvents_flushEvents _ s.fb s
  | rstAssert | rstRelease => rfl

/-- Settles O46: after n small steps the first n events have happened, and the others only add to the trace. -/
theorem smallStepsAgreeWithBigStep : Obligations.SmallStepsAgreeWithBigStep := by
  intro i s t hs h
  obtain ⟨-, rfl⟩ := exec_next_iff.1 h
  have hall := applyEvents_events hs i
  have hend : (InProgress.start i s).smalls (events s.fb i).length =
      { block := (s.setFb (fbAfter s.fb i)).driveAll (drivesOf s.fb i), remaining := [] } := by
    simp [smalls_eq, InProgress.start, hall]
  rw [hend]
  refine ⟨rfl, by simp, by simp, by simp, fun n => ?_⟩
  have htrace : (applyEvents (events s.fb i) s).trace = (stateAfter i s).trace := by simp [hall]
  rw [smalls_eq, ← htrace]
  exact trace_applyEvents_take_extends n _ s

end Sys2Proof.Machine
end

section
/-! SUPPORT. What a listener has read after an operation (41_serializer_ops.md R133, R134): what it had read before, then
the frames the operation sends. -/

namespace Sys2Proof.Machine

/-- With CS released the receiver stands outside a bracket, if it stood so wherever CS was released before. -/
theorem sample_of_released {p q : Pins} {bracket : Option (List (Bool × Mode))} (hq : q.cs = .released)
    (hp : p.cs = .released → bracket = none) : sample p q bracket = none := by
  cases hc : p.cs with
  | asserted => simp [sample, hc, hq]
  | released => simp [sample, hc, hq, hp hc]

/-- Drives that leave CS released divide the receiver's walk: it goes on from their lines outside a bracket. -/
theorem receive_append {p : Pins} {bracket : Option (List (Bool × Mode))} (hp : p.cs = .released → bracket = none)
    (ds es : List Drive) (h : (ds.foldl Pins.set p).cs = .released) :
    receive p bracket (waveFrom p (ds ++ es)) =
      receive p bracket (waveFrom p ds) ++ framesFrom (ds.foldl Pins.set p) es := by
  induction ds generalizing p bracket with
  | nil => rw [hp h]; rfl
  | cons d ds ih =>
    simp only [List.cons_append, waveFrom, receive, List.append_assoc]
    rw [ih (fun hq => sample_of_released hq hp) h, List.foldl_cons]

theorem framesFrom_append (p : Pins) (ds es : List Drive) (h : (ds.foldl Pins.set p).cs = .released) :
    framesFrom p (ds ++ es) = framesFrom p ds ++ framesFrom (ds.foldl Pins.set p) es :=
  receive_append (fun _ => rfl) ds es h

/-- The drives of the reset line show the receiver nothing. -/
theorem framesFrom_rstDrives {p : Pins} (hp : p.idle = true) (i : Instr) (ds : List Drive) :
    framesFrom p (rstDrives i ++ ds) = framesFrom ((rstDrives i).foldl Pins.set p) ds := by
  cases i with
  | rstAssert | rstRelease => exact framesFrom_rst hp _ ds
  | _ => rfl

/-- From the drives of an operation the receiver reads the frames it sends. -/
theorem framesFrom_drivesOf {p : Pins} (hp : p.idle = true) (m : Memory) (i : Instr) :
    framesFrom p (drivesOf m i) = framesSent m i := by
  have hframes := framesFrom_frames (idle_after_rstDrives hp i) (framesSent m i) []
  rw [List.append_nil] at hframes
  rw [drivesOf, framesFrom_rstDrives hp, hframes]
  exact List.append_nil _

/-- What the receiver has read grows by the frames the operation sends (41_serializer_ops.md R134). -/
theorem frames_after_exec {i : Instr} {s t : State} (hs : Inv s) (h : exec i s = .next t) :
    frames t.trace = frames s.trace ++ framesSent s.fb i := by
  obtain ⟨-, rfl⟩ := exec_next_iff.1 h
  have hidle := hs.linesIdle
  rw [hs.lastDriven] at hidle
  rw [stateAfter_trace, frames, framesFrom_append _ _ _ (Pins.idle_iff.1 hidle).2, framesFrom_drivesOf hidle, frames]

end Sys2Proof.Machine
end

section
/-! PROOFS. What the display was last sent (10_state.md R32; 20_memory.md R61, R62; log 11): the framebuffer after a
flush, unchanged by an operation without frames. -/

namespace Sys2Proof.Machine

/-! ### A flush read from the head of a frame list -/

theorem dropCmds_eq_some_iff {cs : List Byte} {fs rest : List Frame} :
    dropCmds cs fs = some rest ↔ fs = cmdFrames cs ++ rest := by
  induction cs generalizing fs with
  | nil => simp [dropCmds, cmdFrames]
  | cons c cs ih =>
    match fs with
    | [] => simp [dropCmds, cmdFrames]
    | (.data, d) :: fs => simp [dropCmds, cmdFrames]
    | (.cmd, d) :: fs =>
      by_cases hd : c = d
      · subst hd
        simpa [dropCmds, cmdFrames] using ih
      · simp [dropCmds, cmdFrames, hd, Ne.symm hd]

theorem takeData_eq_some_iff {n : Nat} {fs rest : List Frame} {ds : List Byte} :
    takeData n fs = some (ds, rest) ↔ ds.length = n ∧ fs = ds.map (Prod.mk Mode.data) ++ rest := by
  induction n generalizing fs ds with
  | zero =>
    cases ds with
    | nil => simp [takeData]
    | cons d ds => simp [takeData]
  | succ n ih =>
    cases ds with
    | nil =>
      match fs with
      | [] | (.cmd, _) :: _ | (.data, _) :: _ => simp [takeData]
    | cons d' ds =>
      match fs with
      | [] | (.cmd, _) :: _ => simp [takeData]
      | (.data, d) :: fs => simp [takeData, ih, and_left_comm]

/-- A flush stands at the head of a frame list exactly when its first band does, and the other bands after it. -/
theorem takeFlush_cons_eq_some_iff {page : Nat → ByteList1} {b : Nat} {bs : List Nat} {fs : List Frame}
    {bytes : List Byte} :
    takeFlush page (b :: bs) fs = some bytes ↔
      ∃ ds rest bytes', ds.length = Config.width ∧
        fs = cmdFrames (page b).toList ++ (ds.map (Prod.mk Mode.data) ++ rest) ∧
        takeFlush page bs rest = some bytes' ∧ bytes = ds ++ bytes' := by
  rw [takeFlush]
  constructor
  · intro h
    split at h
    · cases h
    · next fs1 hcmds =>
      split at h
      · cases h
      · next ds rest hdata =>
        obtain ⟨bytes', hrest, rfl⟩ := Option.map_eq_some_iff.1 h
        obtain ⟨hlen, rfl⟩ := takeData_eq_some_iff.1 hdata
        exact ⟨ds, rest, bytes', hlen, dropCmds_eq_some_iff.1 hcmds, hrest, rfl⟩
  · rintro ⟨ds, rest, bytes', hlen, rfl, hrest, rfl⟩
    simp only [dropCmds_eq_some_iff.2 rfl, takeData_eq_some_iff.2 ⟨hlen, rfl⟩, hrest, Option.map_some]

/-- The flush of a framebuffer's bands is read back as their bytes (42_device_sequences.md R153). -/
theorem takeFlush_bandFrames (page : Nat → ByteList1) (m : Memory) (bs : List Nat) (rest : List Frame) :
    takeFlush page bs (bs.flatMap (bandFrames page m) ++ rest) =
      some (bs.flatMap fun b => (List.range Config.width).map fun c => fbRead m b c) := by
  induction bs with
  | nil => rfl
  | cons b bs ih =>
    refine takeFlush_cons_eq_some_iff.2 ⟨_, _, _, by simp, ?_, ih, List.flatMap_cons⟩
    simp [bandFrames]

/-- A list at whose head a flush stands is no shorter than a flush, of whatever framebuffer. -/
theorem length_le_of_takeFlush {page : Nat → ByteList1} (m : Memory) {bs : List Nat} {fs : List Frame}
    {bytes : List Byte} (h : takeFlush page bs fs = some bytes) :
    (bs.flatMap (bandFrames page m)).length ≤ fs.length := by
  induction bs generalizing fs bytes with
  | nil => exact Nat.zero_le _
  | cons b bs ih =>
    obtain ⟨ds, rest, bytes', hlen, rfl, hrest, -⟩ := takeFlush_cons_eq_some_iff.1 h
    have hband : (bandFrames page m b).length = (cmdFrames (page b).toList).length + ds.length := by
      simp [bandFrames, hlen]
    have := ih hrest
    simp only [List.flatMap_cons, List.length_append, List.length_map, hband]
    omega

/-! ### The last flush of a frame list -/

/-- A list shorter than a flush holds none. -/
theorem lastFlush_eq_none_of_short {page : Nat → ByteList1} (m : Memory) {fs : List Frame}
    (h : fs.length < (flushFrames page m).length) : lastFlush page fs = none := by
  induction fs with
  | nil => rfl
  | cons f fs ih =>
    rw [lastFlush, ih (Nat.lt_of_succ_lt h), ← Option.not_isSome_iff_eq_none, Option.isSome_iff_exists]
    rintro ⟨bytes, hbytes⟩
    exact Nat.not_le.2 h (length_le_of_takeFlush m hbytes)

/-- In the frames of one flush the last flush is that one. -/
theorem lastFlush_flushFrames (page : Nat → ByteList1) (m : Memory) :
    lastFlush page (flushFrames page m) = some (fbImage m) := by
  have hwhole : takeFlush page (List.range Config.bands) (flushFrames page m) = some (fbImage m) := by
    have := takeFlush_bandFrames page m (List.range Config.bands) []
    simpa [flushFrames, fbImage, allBytes, List.map_flatMap, Function.comp_def] using this
  obtain ⟨f, fs, hfs⟩ := List.exists_cons_of_ne_nil (flushFrames_ne_nil page m)
  have hshort : lastFlush page fs = none := lastFlush_eq_none_of_short m (by simp [hfs])
  rw [hfs] at hwhole ⊢
  simp only [lastFlush, hshort, hwhole]

/-- Frames before a flush do not change which is the last. -/
theorem lastFlush_append {page : Nat → ByteList1} (fs : List Frame) {gs : List Frame} {bytes : List Byte}
    (h : lastFlush page gs = some bytes) : lastFlush page (fs ++ gs) = some bytes := by
  induction fs with
  | nil => exact h
  | cons f fs ih => simp only [List.cons_append, lastFlush, ih]

/-! ### The statements -/

/-- The flushing operations send the framebuffer they leave (40_framebuffer_ops.md R112, R113, decision D5). -/
theorem framesSent_of_flushing (m : Memory) {i : Instr}
    (hi : i = .flush ∨ i = .clear true ∨ ∃ x1 y1 x2 y2 on, i = .fillRect x1 y1 x2 y2 on true) :
    framesSent m i = flushFrames Config.pageCmd (fbAfter m i) := by
  obtain rfl | rfl | ⟨x1, y1, x2, y2, on, rfl⟩ := hi <;> rfl

/-- Settles O34: the frames added are one flush, and no later place of the trace has room for another. -/
theorem sentIsTheFramebufferAfterAFlush : Obligations.SentIsTheFramebufferAfterAFlush := by
  intro i s t hs h hi
  rw [sent, frames_after_exec hs h, framesSent_of_flushing s.fb hi]
  obtain ⟨-, rfl⟩ := exec_next_iff.1 h
  rw [stateAfter_fb]
  exact lastFlush_append _ (lastFlush_flushFrames _ _)

/-- Settles O35: the receiver has read no further frame. -/
theorem displayIsStaleUntilFlushed : Obligations.DisplayIsStaleUntilFlushed := by
  intro i s t hs h hno
  rw [sent, frames_after_exec hs h, hno, List.append_nil, sent]

end Sys2Proof.Machine
end

section
/-! SUPPORT. More laws of the framebuffer (20_memory.md R50 to R56, R59): bytes in a word, the byte of a pixel write,
writes that change nothing, the bytes of a flush. -/

namespace Sys2Proof.Machine

/-! ### Bytes in a word -/

/-- Of a word that ends in a byte, byte 0 is that byte, and the others are those of the rest, one further up. -/
theorem getLsbD_append_byte {w : Nat} (v : BitVec w) (d : Byte) (n : Nat) {i : Nat} (hi : i ≤ 7) :
    (v ++ d).getLsbD (8 * n + i) = if n = 0 then d.getLsbD i else v.getLsbD (8 * (n - 1) + i) := by
  rw [BitVec.getLsbD_append]
  by_cases hn : n = 0
  · rw [if_pos hn, if_pos (by omega), hn, Nat.mul_zero, Nat.zero_add]
  · rw [if_neg hn, if_neg (by omega), show 8 * n + i - 8 = 8 * (n - 1) + i by omega]

/-- Byte `b` of a word of eight bytes stands at the bits from `8 * b` on. -/
theorem getLsbD_append_bytes (f : Nat → Byte) {b i : Nat} (hb : b ≤ 7) (hi : i ≤ 7) :
    (f 7 ++ f 6 ++ f 5 ++ f 4 ++ f 3 ++ f 2 ++ f 1 ++ f 0).getLsbD (8 * b + i) = (f b).getLsbD i := by
  simp only [getLsbD_append_byte _ _ _ hi]
  interval_cases b <;> simp

/-! ### Pixel writes -/

theorem inRange_eq_false_iff {x y : Nat} : inRange x y = false ↔ 128 ≤ x ∨ 64 ≤ y := by
  rw [← Bool.not_eq_true, inRange_iff]
  omega

theorem putBit_eq_ite (on : Bool) (v : Byte) (i : Nat) :
    putBit on v i = if on then v ||| (1#8 <<< i) else v &&& ~~~(1#8 <<< i) := by
  cases on <;> rfl

/-- A pixel write in range replaces one byte by itself with one bit put (20_memory.md R54). -/
theorem fbRead_pixWrite {m : Memory} (hm : m.wf) {x y : Nat} (h : inRange x y = true) (on : Bool) {b c : Nat}
    (hc : c ≤ 127) :
    fbRead (pixWrite m x y on) b c =
      if b = band y ∧ c = x then putBit on (fbRead m (band y) x) (bitPos y) else fbRead m b c := by
  rw [pixWrite, if_pos h, fbRead_fbWrite hm (inRange_iff.1 h).1 hc]

/-- A pixel write of the value the pixel has changes nothing (20_memory.md R59). -/
theorem pixWrite_pix {m : Memory} (hm : m.wf) (x y : Nat) : pixWrite m x y (pix m x y) = m := by
  refine pix_ext (wf_pixWrite hm _ _ _) hm fun x' y' h => ?_
  rw [pix_pixWrite hm _ _ _ h]
  split
  · next heq => rw [heq.1, heq.2]
  · rfl

/-! ### Fills -/

/-- A fill done twice leaves what it left once (20_memory.md R59). -/
theorem fillPixels_fillPixels {m : Memory} (hm : m.wf) (on : Bool) (ps : List (Nat × Nat)) :
    fillPixels on ps (fillPixels on ps m) = fillPixels on ps m := by
  have hw := wf_fillPixels hm on ps
  refine pix_ext (wf_fillPixels hw on ps) hw fun x y h => ?_
  rw [pix_fillPixels hw on ps h]
  split
  · next hmem => rw [pix_fillPixels hm on ps h, if_pos hmem]
  · rfl

/-- A fill of pixels out of range changes nothing (20_memory.md R52). -/
theorem fillPixels_outOfRange {ps : List (Nat × Nat)} (h : ∀ p ∈ ps, inRange p.1 p.2 = false) (on : Bool)
    (m : Memory) : fillPixels on ps m = m := by
  induction ps with
  | nil => rfl
  | cons p ps ih =>
    obtain ⟨hp, hps⟩ := List.forall_mem_cons.1 h
    rw [fillPixels_cons, pixWrite_outOfRange hp, ih hps]

/-! ### Operations that write without flush -/

@[simp] theorem State.setFb_setFb (s : State) (m m' : Memory) : (s.setFb m).setFb m' = s.setFb m' := rfl

theorem exec_fillRect_noFlush (x1 y1 x2 y2 : Nat) (on : Bool) (s : State) :
    exec (.fillRect x1 y1 x2 y2 on false) s = .next (s.setFb (fillPixels on (rectPixels x1 y1 x2 y2) s.fb)) := rfl

theorem exec_clear_noFlush (s : State) : exec (.clear false) s = .next (s.setFb zeroFb) := rfl

/-- Performing two operations is performing the second on the state the first answers. -/
theorem performAll_pair {i j : Instr} {s t u : State} (hi : exec i s = .next t) (hj : exec j t = .next u) :
    performAll [i, j] s = .next u := by
  rw [performAll_cons s hi, performAll_cons t hj, performAll_nil]

/-! ### The bytes of a flush -/

/-- The DATA frames of a flush are the bytes of the framebuffer, band 0 first, column 0 first. -/
theorem filter_data_flushFrames (page : Nat → ByteList1) (m : Memory) :
    (flushFrames page m).filter (fun f => f.1 = .data) =
      (List.range Config.bands).flatMap fun b => (List.range Config.width).map fun c => (Mode.data, fbRead m b c) := by
  simp [flushFrames, bandFrames, cmdFrames, List.filter_flatMap, List.filter_map, Function.comp_def]

/-- The bits of a byte, bit 7 first, are the pixels of its eight rows (20_memory.md R51(b)). -/
theorem bits_fbRead (m : Memory) {b : Nat} (hb : b ≤ 7) (c : Nat) :
    ([7, 6, 5, 4, 3, 2, 1, 0].map fun i => (fbRead m b c).getLsbD i) =
      [7, 6, 5, 4, 3, 2, 1, 0].map fun i => pix m c (rowOf b i) := by
  refine List.map_congr_left fun i hi => fbRead_getLsbD hb ?_
  revert i
  decide

end Sys2Proof.Machine
end

section
/-! SUPPORT. The events of an operation counted by kind (70_reset_and_hazards.md R201; 20_memory.md R54). -/

namespace Sys2Proof.Machine

theorem countEvents_append (es es' : List Event) : countEvents (es ++ es') = countEvents es + countEvents es' := by
  induction es with
  | nil => exact (zero_add (countEvents es')).symm
  | cons e es ih =>
    cases e <;> simp [countEvents, ih, Prod.ext_iff, Nat.add_right_comm]

theorem countEvents_drives (ds : List Drive) : countEvents (ds.map .drive) = (0, 0, ds.length) := by
  induction ds with
  | nil => rfl
  | cons d ds ih => simp [countEvents, ih]

theorem countEvents_writes (ps : List (Nat × Nat)) (v : Byte) :
    countEvents (ps.map fun p => .write p.1 p.2 v) = (0, ps.length, 0) := by
  induction ps with
  | nil => rfl
  | cons p ps ih => simp [countEvents, ih]

theorem countEvents_frameEvents (fs : List Frame) : countEvents (frameEvents fs) = (0, 0, 27 * fs.length) := by
  rw [frameEvents, countEvents_drives, flatMap_frameDrives_length]

/-- Parts of `n` reads and the drives of some frames each, counted together. -/
theorem countEvents_flatMap {α : Type} {ev : α → List Event} {fr : α → List Frame} {n : Nat}
    (h : ∀ a, countEvents (ev a) = (n, 0, 27 * (fr a).length)) (l : List α) :
    countEvents (l.flatMap ev) = (n * l.length, 0, 27 * (l.flatMap fr).length) := by
  induction l with
  | nil => rfl
  | cons a l ih => simp [countEvents_append, h, ih, Nat.mul_add, Nat.add_comm]

/-- A flush reads every byte once and makes the drives of its frames (70_reset_and_hazards.md R201). -/
theorem countEvents_flushEvents (page : Nat → ByteList1) (m : Memory) :
    countEvents (flushEvents page m) = (1024, 0, 27 * (flushFrames page m).length) := by
  refine countEvents_flatMap (n := 128) (fun b => ?_) (List.range Config.bands)
  have hbytes := countEvents_flatMap (n := 1) (ev := fun c => .read b c :: frameEvents [(.data, fbRead m b c)])
    (fr := fun c => [(Mode.data, fbRead m b c)]) (fun c => by rw [countEvents, countEvents_frameEvents])
    (List.range Config.width)
  rw [countEvents_append, countEvents_frameEvents, hbytes]
  simp [bandFrames, Config.width, Nat.mul_add]

/-- A pixel write in range is one read and one write (20_memory.md R54). -/
theorem countEvents_pixEvents {x y : Nat} (h : inRange x y = true) (m : Memory) (on : Bool) :
    countEvents (pixEvents m x y on) = (1, 1, 0) := by
  rw [pixEvents, if_pos h]
  rfl

theorem length_allBytes : allBytes.length = 1024 := by
  simp [allBytes, Config.bands, Config.width, List.length_flatMap]

theorem countEvents_clear (m : Memory) : countEvents (events m (.clear false)) = (0, 1024, 0) := by
  rw [events, flushIfEvents, List.append_nil, countEvents_writes, length_allBytes]

end Sys2Proof.Machine
end

section
/-! PROOFS. The framebuffer: the map of its pixels, and how it is accessed (20_memory.md R50 to R56, R59). -/

namespace Sys2Proof.Machine

/-- Settles O3: row y is bit `63 - y = 8 * band y + bitPos y` of the word. -/
theorem columnWordHoldsRowsReversed : Obligations.ColumnWordHoldsRowsReversed := by
  intro m c y _ hy
  have hbit : 63 - y = 8 * band y + bitPos y := by simp only [band, bitPos]; omega
  rw [hbit]
  exact getLsbD_append_bytes (fun b => fbRead m b c) (band_le y) (Nat.le_of_lt_succ (bitPos_lt y))

/-- Settles O4: the byte of the pixel is the one byte read and written. -/
theorem setPixelReadModifiesOneByte : Obligations.SetPixelReadModifiesOneByte := by
  refine ⟨fun s x y on hs hx hy => ?_, countEvents_clear, fun m => ?_⟩
  · have hin : inRange x y = true := inRange_iff.2 ⟨hx, hy⟩
    have hband : 7 - y / 8 = band y := rfl
    have hbit : 7 - y % 8 = bitPos y := rfl
    have hbyte : fbRead (pixWrite s.fb x y on) (band y) x = putBit on (fbRead s.fb (band y) x) (bitPos y) := by
      rw [fbRead_pixWrite hs hin on hx, if_pos ⟨rfl, rfl⟩]
    refine ⟨s.setFb (pixWrite s.fb x y on), exec_setPixel s x y on, ?_⟩
    rw [hband, hbit, State.setFb_fb, hbyte]
    refine ⟨putBit_eq_ite .., ?_, fun j hj hne => ?_, fun b c _ hc hne => ?_, rfl, rfl, rfl, rfl, rfl,
      countEvents_pixEvents hin s.fb on⟩
    · rw [putBit_getLsbD on _ (bitPos_lt y) (bitPos_lt y), if_pos rfl]
    · rw [putBit_getLsbD on _ (bitPos_lt y) (Nat.lt_succ_of_le hj), if_neg hne]
    · rw [fbRead_pixWrite hs hin on hc, if_neg hne]
  · rw [events, countEvents_flushEvents]
    exact ⟨rfl, rfl⟩

/-- Settles O9: what is written over a write of the same pixels or bytes is the same. -/
theorem framebufferWritesAreIdempotent : Obligations.FramebufferWritesAreIdempotent := by
  refine ⟨fun s x y hs _ _ => ?_, fun s x1 y1 x2 y2 on hs => ?_, fun s _ => ?_⟩
  · rw [exec_setPixel, pixWrite_pix hs, State.setFb_self]
  · rw [performAll_pair (exec_fillRect_noFlush x1 y1 x2 y2 on s) (exec_fillRect_noFlush x1 y1 x2 y2 on _),
      State.setFb_fb, fillPixels_fillPixels hs, State.setFb_setFb, exec_fillRect_noFlush]
  · rw [performAll_pair (exec_clear_noFlush s) (exec_clear_noFlush _), State.setFb_setFb, exec_clear_noFlush]

/-- Settles O32: the DATA frames are the bytes, and the bits of a byte are pixels. -/
theorem flushBitsLeaveInPixelOrder : Obligations.FlushBitsLeaveInPixelOrder := by
  intro m
  rw [framesSent, filter_data_flushFrames, List.flatMap_assoc]
  refine List.flatMap_congr fun b hb => ?_
  rw [List.flatMap_map]
  exact List.flatMap_congr fun c _ => bits_fbRead m (Nat.le_of_lt_succ (List.mem_range.1 hb)) c

/-- Settles O1: this is how `pix` finds the byte and the bit. -/
theorem pixelIsItsBandBit : Obligations.PixelIsItsBandBit := fun _ _ _ _ _ => rfl

/-- Settles O2: the formula is `rowOf`. -/
theorem pixelMapIsBijective : Obligations.PixelMapIsBijective :=
  ⟨fun y hy => ⟨band_le y, Nat.le_of_lt_succ (bitPos_lt y), rowOf_band_bitPos hy⟩,
    fun _ _ hb hi => ⟨rowOf_le, band_rowOf hb, bitPos_rowOf hi⟩⟩

/-- Settles O5: every pixel of the rectangle is as far out of range as its lower corner. -/
theorem outOfRangeAccessIsDropped : Obligations.OutOfRangeAccessIsDropped := by
  refine ⟨fun x y => inRange_iff, fun s x y h => ?_, fun s x1 y1 x2 y2 on h => ?_⟩
  · have hout := inRange_eq_false_iff.2 h
    refine ⟨fun on => ?_, Config.freeBit s.draws, ?_⟩
    · rw [exec_setPixel, pixWrite_outOfRange hout, State.setFb_self]
    · rw [exec_getPixel, hout]
      rfl
  · have hout : ∀ p ∈ rectPixels x1 y1 x2 y2, inRange p.1 p.2 = false := fun p hp => by
      obtain ⟨⟨hx, -⟩, hy, -⟩ := mem_rectPixels.1 hp
      exact inRange_eq_false_iff.2 (by omega)
    rw [exec_fillRect_noFlush, fillPixels_outOfRange hout, State.setFb_self]

end Sys2Proof.Machine
end

section
/-! PROOFS. The encodings of the host's operations and of the wire frame: reading a word back, and words written out
(30_encoding.md R82, R90 to R94). -/

namespace Sys2Proof

/-- A packed word is decoded from the fields it is packed from (30_encoding.md R90). -/
theorem decodeOpWord_pack (op : BitVec 4) (f v m : Bool) (a b c d : Byte) :
    decodeOpWord (packOpWord op f v m a b c d) = decodeFields op f v m false a b c d := by
  simp [decodeOpWord]

/-- The bit in front of the eight data bits is the mode bit of a frame pattern (30_encoding.md R82). -/
theorem getLsbD_frame_mode (b : Bool) (d : Byte) : (BitVec.ofBool b ++ d).getLsbD 8 = b := by
  rw [BitVec.getLsbD_append]; simp

/-- Every well-formed instruction is read back from its word (30_encoding.md R90 to R92, R82, decision D16). -/
theorem decode_encode {i : Instr} (h : i.wellFormed = true) : decode (encode i) = .ok i := by
  cases i with
  | frameCmd | frameData =>
    simp only [encode, decode, decodeFrameWord, getLsbD_frame_mode, Mode.ofBit_toBit,
      BitVec.extractLsb'_append_eq_right]
  | setPixel | getPixel | fillRect =>
    simp only [Instr.wellFormed, Bool.and_eq_true] at h
    simp [encode, decode, decodeOpWord_pack, decodeFields, ifUnusedZero, toNat_coordField, h]
  | clear | writeByte | powerOn | powerOff | initSeq | flush | rstAssert | rstRelease =>
    simp [encode, decode, decodeOpWord_pack, decodeFields, ifUnusedZero]

end Sys2Proof

namespace Sys2Proof.Machine

/-- Settles O48: the decoder evaluated on each of the eleven words. -/
theorem tableWordsDecode : Obligations.TableWordsDecode := by
  unfold Obligations.TableWordsDecode
  decide

/-- Settles O52: both instructions are well formed, and SETPIXEL's pixel write is dropped. -/
theorem outOfRangeCoordinatesAreLegalWords : Obligations.OutOfRangeCoordinatesAreLegalWords := by
  intro x y on s ws hx hy hout
  have hfits : (coordFits x && coordFits y) = true := by
    rw [coordFits_iff.2 (Nat.lt_succ_of_le hx), coordFits_iff.2 (Nat.lt_succ_of_le hy), Bool.and_self]
  have hset : decode (encode (.setPixel x y on)) = .ok (.setPixel x y on) := decode_encode hfits
  refine ⟨hset, decode_encode hfits, fun hs => ?_⟩
  rw [step_of_decode hs hset, exec_setPixel, pixWrite_outOfRange (inRange_eq_false_iff.2 hout), State.setFb_self]

end Sys2Proof.Machine
end

section
/-! SUPPORT. The algebra of pixel writes and fills (40_framebuffer_ops.md R114): writes commute, the later one stays, a
fill depends on its in-range pixels alone; how many pixels a fill of the cleared framebuffer sets. -/

namespace Sys2Proof.Machine

/-! ### Pixel writes -/

/-- Writes of different pixels commute (40_framebuffer_ops.md R114(c)). -/
theorem pixWrite_comm {m : Memory} (hm : m.wf) {x y x' y' : Nat} (hne : (x, y) ≠ (x', y')) (v v' : Bool) :
    pixWrite (pixWrite m x y v) x' y' v' = pixWrite (pixWrite m x' y' v') x y v := by
  have hw := wf_pixWrite hm x y v
  have hw' := wf_pixWrite hm x' y' v'
  refine pix_ext (wf_pixWrite hw _ _ _) (wf_pixWrite hw' _ _ _) fun a b h => ?_
  rw [pix_pixWrite hw _ _ _ h, pix_pixWrite hm _ _ _ h, pix_pixWrite hw' _ _ _ h, pix_pixWrite hm _ _ _ h]
  by_cases h1 : a = x ∧ b = y
  · have h2 : ¬(a = x' ∧ b = y') := fun h2 => hne (by rw [← h1.1, ← h1.2, ← h2.1, ← h2.2])
    rw [if_pos h1, if_neg h2, if_pos h1]
  · rw [if_neg h1, if_neg h1]

/-- Of two writes of one pixel the later stays (40_framebuffer_ops.md R114(c)). -/
theorem pixWrite_pixWrite_same {m : Memory} (hm : m.wf) (x y : Nat) (v v' : Bool) :
    pixWrite (pixWrite m x y v) x y v' = pixWrite m x y v' := by
  have hw := wf_pixWrite hm x y v
  refine pix_ext (wf_pixWrite hw _ _ _) (wf_pixWrite hm _ _ _) fun a b h => ?_
  rw [pix_pixWrite hw _ _ _ h, pix_pixWrite hm _ _ _ h, pix_pixWrite hm _ _ _ h]
  by_cases h1 : a = x ∧ b = y
  · rw [if_pos h1, if_pos h1]
  · rw [if_neg h1, if_neg h1, if_neg h1]

/-! ### Fills -/

/-- A fill depends on the in-range members of its list alone, not on their order or number
(40_framebuffer_ops.md R114(d)). -/
theorem fillPixels_congr {m : Memory} (hm : m.wf) (on : Bool) {ps qs : List (Nat × Nat)}
    (h : ∀ x y, inRange x y = true → ((x, y) ∈ ps ↔ (x, y) ∈ qs)) : fillPixels on ps m = fillPixels on qs m := by
  refine pix_ext (wf_fillPixels hm on ps) (wf_fillPixels hm on qs) fun x y hxy => ?_
  rw [pix_fillPixels hm on ps hxy, pix_fillPixels hm on qs hxy, if_congr (h x y hxy) rfl rfl]

/-- Clearing every pixel of a rectangle that covers the grid clears every byte (40_framebuffer_ops.md R114(e)). -/
theorem fillPixels_false_of_grid {m : Memory} (hm : m.wf) {x2 y2 : Nat} (hx : 127 ≤ x2) (hy : 63 ≤ y2) :
    fillPixels false (rectPixels 0 0 x2 y2) m = zeroFb := by
  refine pix_ext (wf_fillPixels hm _ _) wf_zeroFb fun x y h => ?_
  obtain ⟨hx', hy'⟩ := inRange_iff.1 h
  rw [pix_fillPixels hm _ _ h, if_pos (mem_rectPixels.2 (by omega)), pix_zeroFb]

/-! ### Counting -/

theorem nodup_rectPixels (x1 y1 x2 y2 : Nat) : (rectPixels x1 y1 x2 y2).Nodup := by
  refine List.nodup_flatMap.2 ⟨fun y _ => ?_, ?_⟩
  · exact (List.nodup_range' ..).map fun a b h => (Prod.mk.inj h).1
  · refine List.Pairwise.imp (fun {a b} hne => ?_) (List.nodup_range' (s := y1) (n := y2 + 1 - y1))
    rintro ⟨x, y⟩ ha hb
    simp only [List.mem_map, Prod.mk.injEq] at ha hb
    obtain ⟨-, -, -, rfl⟩ := ha
    obtain ⟨-, -, -, rfl⟩ := hb
    exact hne rfl

theorem length_rectPixels (x1 y1 x2 y2 : Nat) :
    (rectPixels x1 y1 x2 y2).length = (x2 + 1 - x1) * (y2 + 1 - y1) := by
  simp [rectPixels, closedRange, List.length_flatMap, Nat.mul_comm]

/-- The count of 40_framebuffer_ops.md R114(f) is that of the rectangle clipped to the grid. -/
theorem rectCount_eq_length (x1 y1 x2 y2 : Nat) :
    rectCount x1 y1 x2 y2 = (rectPixels x1 y1 (min x2 127) (min y2 63)).length := by
  rw [rectCount_eq, length_rectPixels]
  split
  · rfl
  · next hout =>
    have hzero : min x2 127 + 1 - x1 = 0 ∨ min y2 63 + 1 - y1 = 0 := by omega
    exact (Nat.mul_eq_zero.2 hzero).symm

/-- The pixels a fill of the cleared framebuffer sets are the in-range ones of its list. -/
theorem pix_fillPixels_zeroFb (ps : List (Nat × Nat)) {x y : Nat} (h : inRange x y = true) :
    pix (fillPixels true ps zeroFb) x y = decide ((x, y) ∈ ps) := by
  rw [pix_fillPixels wf_zeroFb _ _ h, pix_zeroFb]
  by_cases hmem : (x, y) ∈ ps <;> simp [hmem]

/-- The set pixels of the grid and those of the clipped rectangle are the same, each listed once. -/
theorem setPixelCount_fillPixels_zeroFb (x1 y1 x2 y2 : Nat) :
    setPixelCount (fillPixels true (rectPixels x1 y1 x2 y2) zeroFb) = rectCount x1 y1 x2 y2 := by
  rw [rectCount_eq_length, setPixelCount]
  refine List.Perm.length_eq ((List.perm_ext_iff_of_nodup ((nodup_rectPixels ..).filter _) (nodup_rectPixels ..)).2 ?_)
  rintro ⟨x, y⟩
  rw [List.mem_filter, mem_rectPixels, mem_rectPixels]
  constructor
  · rintro ⟨⟨⟨-, hx⟩, -, hy⟩, hset⟩
    rw [pix_fillPixels_zeroFb _ (inRange_iff.2 ⟨hx, hy⟩), decide_eq_true_iff, mem_rectPixels] at hset
    omega
  · intro hmem
    have hgrid : x ≤ 127 ∧ y ≤ 63 := by omega
    refine ⟨⟨⟨x.zero_le, hgrid.1⟩, y.zero_le, hgrid.2⟩, ?_⟩
    rw [pix_fillPixels_zeroFb _ (inRange_iff.2 hgrid), decide_eq_true_iff, mem_rectPixels]
    omega

/-! ### Operations, alone and one after the other -/

theorem exec_getPixel_inRange {x y : Nat} (h : inRange x y = true) (s : State) :
    exec (.getPixel x y) s = .next (s.giveBit (pix s.fb x y)) := by
  rw [exec_getPixel, if_pos h]

/-- CLEAR is FILLRECT with 0 of any rectangle that covers the grid (40_framebuffer_ops.md R114(e)). -/
theorem exec_clear_eq_fillRect {s : State} (hs : s.fb.wf) (f : Bool) {x2 y2 : Nat} (hx : 127 ≤ x2) (hy : 63 ≤ y2) :
    exec (.clear f) s = exec (.fillRect 0 0 x2 y2 false f) s := by
  rw [exec_clear, exec_fillRect, fillPixels_false_of_grid hs hx hy]

theorem performAll_singleton (i : Instr) (s : State) : performAll [i] s = exec i s := by
  rw [performAll]
  cases exec i s <;> rfl

theorem performAll_setPixel_pair (x y x' y' : Nat) (v v' : Bool) (s : State) :
    performAll [.setPixel x y v, .setPixel x' y' v'] s =
      .next (s.setFb (pixWrite (pixWrite s.fb x y v) x' y' v')) :=
  performAll_pair (exec_setPixel s x y v) (exec_setPixel (s.setFb _) x' y' v')

/-- SETPIXELs of one value are a fill of their pixels (40_framebuffer_ops.md R112). -/
theorem performAll_setPixels (on : Bool) (ps : List (Nat × Nat)) (s : State) :
    performAll (ps.map fun p => .setPixel p.1 p.2 on) s = .next (s.setFb (fillPixels on ps s.fb)) := by
  induction ps generalizing s with
  | nil => rfl
  | cons p ps ih =>
    rw [List.map_cons, performAll_cons s (exec_setPixel s p.1 p.2 on), ih, State.setFb_setFb, State.setFb_fb,
      fillPixels_cons]

/-- The FLUSH an operand asks for, as an operation of its own (40_framebuffer_ops.md R112, decision D5). -/
theorem performAll_flushIf (f : Bool) (s : State) : performAll (if f then [.flush] else []) s = flushIf f s := by
  cases f
  · rfl
  · exact performAll_singleton .flush s

end Sys2Proof.Machine
end

section
/-! PROOFS. The algebra of the framebuffer operations (40_framebuffer_ops.md R114). -/

namespace Sys2Proof.Machine

/-- Settles O7: GETPIXEL returns a pixel of the framebuffer that SETPIXEL leaves. -/
theorem setThenGetRoundTrip : Obligations.SetThenGetRoundTrip := by
  intro s x y x' y' on hs _ _ hx' hy'
  have hin := inRange_iff.2 ⟨hx', hy'⟩
  refine ⟨_, performAll_pair (exec_setPixel s x y on) (exec_getPixel_inRange hin _), ?_, rfl, rfl⟩
  rw [State.giveBit_returned, State.setFb_returned, State.setFb_fb, pix_pixWrite hs x y on hin]

/-- Settles O8: each outcome is a framebuffer left by two pixel writes. -/
theorem setPixelsCommute : Obligations.SetPixelsCommute := by
  refine fun s x y x' y' v v' hs => ⟨fun hne => ?_, ?_⟩
  · rw [performAll_setPixel_pair, performAll_setPixel_pair, pixWrite_comm hs hne]
  · rw [performAll_setPixel_pair, pixWrite_pixWrite_same hs, exec_setPixel]

/-- Settles O11: the SETPIXELs are a fill of the same in-range pixels. -/
theorem fillRectIsSetPixelsInAnyOrder : Obligations.FillRectIsSetPixelsInAnyOrder := by
  intro s x1 y1 x2 y2 on flush ps hs hps
  have hfill : fillPixels on ps s.fb = fillPixels on (rectPixels x1 y1 x2 y2) s.fb :=
    fillPixels_congr hs on fun x y h => by
      obtain ⟨hx, hy⟩ := inRange_iff.1 h
      rw [hps x y hx hy, mem_rectPixels]
  rw [performAll_append (performAll_setPixels on ps s), hfill, performAll_flushIf, exec_fillRect]

/-- Settles O14: both rectangles cover the grid. -/
theorem clearIsAFullFill : Obligations.ClearIsAFullFill :=
  fun _ f hs => ⟨exec_clear_eq_fillRect hs f (by decide) (by decide), exec_clear_eq_fillRect hs f (by decide) (by decide)⟩

/-- Settles O16: FILLRECT fills a cleared framebuffer. -/
theorem filledRectangleCountsItsPixels : Obligations.FilledRectangleCountsItsPixels := by
  intro s x1 y1 x2 y2 _
  exact ⟨_, performAll_pair (exec_clear_noFlush s) (exec_fillRect_noFlush x1 y1 x2 y2 true (s.setFb zeroFb)),
    setPixelCount_fillPixels_zeroFb x1 y1 x2 y2⟩

end Sys2Proof.Machine
end

section
/-! SUPPORT. The electrical view of decision D18 against the wave it is drawn from, for any records and any lines before
the first: a record that repeats the lines falls out, a record that changes them stays. -/

namespace Sys2Proof.Machine

/-- A repeated record is left out. -/
@[simp] theorem changesFrom_repeat (p : Pins) (qs : List Pins) : changesFrom p (p :: qs) = changesFrom p qs :=
  if_pos rfl

/-- A changed record is kept. -/
theorem changesFrom_change {p q : Pins} (h : q ≠ p) (qs : List Pins) :
    changesFrom p (q :: qs) = q :: changesFrom q qs :=
  if_neg h

theorem isChain_ne_changesFrom (p : Pins) (qs : List Pins) :
    (p :: changesFrom p qs).IsChain (fun p q => p ≠ q) := by
  induction qs generalizing p with
  | nil => exact .singleton p
  | cons q qs ih =>
    obtain rfl | hne := eq_or_ne q p
    · rw [changesFrom_repeat]; exact ih q
    · rw [changesFrom_change hne]; exact .cons_cons hne.symm (ih q)

theorem changesFrom_sublist (p : Pins) (qs : List Pins) : (changesFrom p qs).Sublist qs := by
  induction qs generalizing p with
  | nil => exact .slnil
  | cons q qs ih =>
    obtain rfl | hne := eq_or_ne q p
    · rw [changesFrom_repeat]; exact (ih q).cons q
    · rw [changesFrom_change hne]; exact (ih q).cons_cons q

theorem getLast?_cons_changesFrom (p : Pins) (qs : List Pins) :
    (p :: changesFrom p qs).getLast? = (p :: qs).getLast? := by
  induction qs generalizing p with
  | nil => rfl
  | cons q qs ih =>
    obtain rfl | hne := eq_or_ne q p
    · rw [changesFrom_repeat, ih, List.getLast?_cons_cons]
    · rw [changesFrom_change hne, List.getLast?_cons_cons, ih, List.getLast?_cons_cons]

/-- A repeated record neither samples nor closes a bracket, so the receiver reads the same without it (decision D18). -/
theorem receive_changesFrom (p : Pins) (bracket : Option (List (Bool × Mode))) (qs : List Pins) :
    receive p bracket (changesFrom p qs) = receive p bracket qs := by
  induction qs generalizing p bracket with
  | nil => rfl
  | cons q qs ih =>
    obtain rfl | hne := eq_or_ne q p
    · rw [changesFrom_repeat, ih, receive, closes_self, sample_self, List.nil_append]
    · rw [changesFrom_change hne, receive, ih, receive]

end Sys2Proof.Machine
end

section
/-! PROOFS. What the serializer puts on the lines and what a listener reads there (41_serializer_ops.md R133, R134). -/

namespace Sys2Proof.Machine

/-- Settles O23: the receiver reads on, outside a bracket, over the drives the operation adds. -/
theorem receiverReadsExactlyTheFramesSent : Obligations.ReceiverReadsExactlyTheFramesSent :=
  fun _ _ _ => frames_after_exec

/-- Settles O22: the frame's drives give the frame, and no drive is left after them. -/
theorem receiverReadsEachFrame : Obligations.ReceiverReadsEachFrame := by
  intro p m d hsck hcs
  have hframe := framesFrom_frame (Pins.idle_iff.2 ⟨hsck, hcs⟩) (m, d) []
  rw [List.append_nil] at hframe
  exact hframe

/-- Settles O27: the drives added are those of `drivesOf`. -/
theorem everyDriveObeysTheBusRules : Obligations.EveryDriveObeysTheBusRules := by
  intro i s t ds hsck hcs h htrace
  obtain ⟨-, rfl⟩ := exec_next_iff.1 h
  rw [stateAfter_trace] at htrace
  rw [← List.append_cancel_left htrace]
  exact busLegal_drivesOf (Pins.idle_iff.2 ⟨hsck, hcs⟩) s.fb i

/-- Settles O53: the electrical view is `changesFrom` of the wave. -/
theorem receiverReadsTheSameOnEitherView : Obligations.ReceiverReadsTheSameOnEitherView :=
  fun tr => ⟨isChain_ne_changesFrom _ _, changesFrom_sublist _ _, getLast?_cons_changesFrom _ _,
    receive_changesFrom resetPins none (wave tr)⟩

end Sys2Proof.Machine
end

section
/-! PROOFS. What the frames of an operation show of it whatever the framebuffer holds (42_device_sequences.md R154). -/

namespace Sys2Proof.Machine

/-- In each band, the modes of a flush are those of the page command and then DATA once per column (42 R153). -/
theorem map_fst_flushFrames (page : Nat → ByteList1) (m : Memory) :
    (flushFrames page m).map Prod.fst = (List.range Config.bands).flatMap fun b =>
      (cmdFrames (page b).toList).map Prod.fst ++ List.replicate Config.width Mode.data := by
  simp [flushFrames, bandFrames, List.map_flatMap, Function.comp_def]

/-- The CMD frames of a flush are the page commands, band 0 first (42 R153). -/
theorem filter_cmd_flushFrames (page : Nat → ByteList1) (m : Memory) :
    (flushFrames page m).filter (fun f => f.1 = .cmd) =
      (List.range Config.bands).flatMap fun b => cmdFrames (page b).toList := by
  simp [flushFrames, bandFrames, cmdFrames, List.filter_flatMap, List.filter_map, Function.comp_def]

/-- Two flushes differ at most in the bytes of their DATA frames. -/
theorem flushFrames_sameShape (page : Nat → ByteList1) (m m' : Memory) :
    (flushFrames page m).map Prod.fst = (flushFrames page m').map Prod.fst ∧
      (flushFrames page m).filter (fun f => f.1 = .cmd) = (flushFrames page m').filter (fun f => f.1 = .cmd) := by
  simp only [map_fst_flushFrames, filter_cmd_flushFrames, and_self]

/-- Settles O33: only a flush reads the framebuffer for its frames, and two flushes have the same shape. -/
theorem frameStreamShapeIgnoresFramebuffer : Obligations.FrameStreamShapeIgnoresFramebuffer := by
  intro i m m'
  cases i with
  | flush => exact flushFrames_sameShape Config.pageCmd m m'
  | fillRect x1 y1 x2 y2 on flush =>
    cases flush with
    | false => exact ⟨rfl, rfl⟩
    | true => exact flushFrames_sameShape Config.pageCmd _ _
  | _ => exact ⟨rfl, rfl⟩

end Sys2Proof.Machine
end

section
/-! PROOFS. Every operation completes from the lines between operations, and none faults (60_exceptions.md R170, R173). -/

namespace Sys2Proof.Machine

/-- An operation completes or is refused for busy lines: a fault is neither, whatever causes `Fault` might list
(60_exceptions.md R170). -/
theorem exec_ne_fault (i : Instr) (s : State) (r : Fault) : exec i s ≠ .fault r := by
  rw [exec_eq]
  split
  · nofun
  · nofun

/-- Settles O36: the lines between operations are idle, where each operation completes; nowhere does one fault. -/
theorem everyOperationCompletes : Obligations.EveryOperationCompletes :=
  ⟨fun i _ hsck hcs => ⟨_, exec_of_idle (Pins.idle_iff.2 ⟨hsck, hcs⟩) i⟩, exec_ne_fault⟩

end Sys2Proof.Machine
end

section
/-! SUPPORT. How many frames a flush sends and which it sends last (42_device_sequences.md R153), the flush of a cleared
framebuffer, and the events of fills and optional flushes counted by kind (70_reset_and_hazards.md R201). -/

namespace Sys2Proof.Machine

/-! ### The frames of a flush -/

/-- A flush sends the page commands and one frame for each byte of the framebuffer. -/
theorem length_flushFrames (page : Nat → ByteList1) (m : Memory) :
    (flushFrames page m).length = ((List.range 8).map fun b => (page b).toList.length).sum + 1024 := by
  simp [flushFrames, bandFrames, length_cmdFrames, Config.bands, Config.width, List.length_flatMap, List.sum_map_add]

/-- The last frame of a flush is the last byte of the last band. -/
theorem flushFrames_eq_append_last (page : Nat → ByteList1) (m : Memory) :
    ∃ fs, flushFrames page m = fs ++ [(.data, fbRead m 7 127)] := by
  have hband : bandFrames page m 7 =
      (cmdFrames (page 7).toList ++ (List.range 127).map fun c => (Mode.data, fbRead m 7 c)) ++
        [(.data, fbRead m 7 127)] := by
    rw [bandFrames, Config.width, List.range_succ, List.map_append, List.map_singleton, List.append_assoc]
  rw [flushFrames, Config.bands, List.range_succ, List.flatMap_append, List.flatMap_singleton, hband,
    ← List.append_assoc]
  exact ⟨_, rfl⟩

/-- The lines a flush leaves (42_device_sequences.md R153). -/
theorem pins_after_flushFrames (page : Nat → ByteList1) (m : Memory) (p : Pins) :
    ((flushFrames page m).flatMap frameDrives).foldl Pins.set p =
      { sck := .low, sda := (fbRead m 7 127).getLsbD 0, cs := .released, dc := .data, rst := p.rst } := by
  obtain ⟨fs, hfs⟩ := flushFrames_eq_append_last page m
  rw [hfs, pins_after_frames]

theorem bandFrames_zeroFb (page : Nat → ByteList1) (b : Nat) :
    bandFrames page zeroFb b = cmdFrames (page b).toList ++ List.replicate 128 (Mode.data, 0x00#8) := by
  simp only [bandFrames, fbRead_zeroFb, List.map_const', List.length_range, Config.width]

/-- The flush of a cleared framebuffer sends zeros. -/
theorem flushFrames_zeroFb (page : Nat → ByteList1) :
    flushFrames page zeroFb = (List.range 8).flatMap fun b =>
      (page b).toList.map (fun c => (Mode.cmd, c)) ++ List.replicate 128 (Mode.data, 0x00#8) :=
  congrArg (List.range 8).flatMap (funext (bandFrames_zeroFb page))

/-! ### Counting events -/

/-- Out of range a pixel write is no event (20_memory.md R52). -/
theorem pixEvents_outOfRange {x y : Nat} (h : inRange x y = false) (m : Memory) (on : Bool) :
    pixEvents m x y on = [] :=
  if_neg (by simp [h])

/-- A fill reads and writes one byte for each in-range pixel of its list (40_framebuffer_ops.md R112). -/
theorem countEvents_fillEvents (on : Bool) (ps : List (Nat × Nat)) (m : Memory) :
    countEvents (fillEvents on ps m) =
      ((ps.filter fun p => inRange p.1 p.2).length, (ps.filter fun p => inRange p.1 p.2).length, 0) := by
  induction ps generalizing m with
  | nil => rfl
  | cons p ps ih =>
    rw [fillEvents, countEvents_append, ih]
    cases h : inRange p.1 p.2 with
    | true => simp [countEvents_pixEvents h, h, Nat.add_comm]
    | false => simp [pixEvents_outOfRange h, h, countEvents]

/-- The flush adds its reads and drives to the counts of what comes before it (decision D5). -/
theorem countEvents_append_flush (es : List Event) (m : Memory) :
    countEvents (es ++ flushIfEvents true m) =
      countEvents es +
        (1024, 0, 27 * (((List.range 8).map fun b => (Config.pageCmd b).toList.length).sum + 1024)) := by
  rw [countEvents_append, flushIfEvents, countEvents_flushEvents, length_flushFrames]

end Sys2Proof.Machine
end

section
/-! SUPPORT. Operations performed one after the other from a state with the invariant, and BRINGUP up to its last one
(70_reset_and_hazards.md R191, R192, decision D14). -/

namespace Sys2Proof.Machine

theorem Inv.completes {s : State} (hs : Inv s) (i : Instr) : exec i s = .next (stateAfter i s) :=
  exec_of_idle hs.linesIdle i

theorem Inv.after {s : State} (hs : Inv s) (i : Instr) : Inv (stateAfter i s) :=
  exec_keeps_inv hs (hs.completes i)

theorem Inv.frames_after {s : State} (hs : Inv s) (i : Instr) :
    frames (stateAfter i s).trace = frames s.trace ++ framesSent s.fb i :=
  frames_after_exec hs (hs.completes i)

/-- The state in which the last operation of BRINGUP begins, its CLEAR with flush. -/
def bringupBeforeClear (s : State) : State := stateAfter .initSeq (stateAfter .rstRelease (stateAfter .rstAssert s))

/-- That CLEAR begins in a state with the invariant. -/
theorem inv_bringupBeforeClear {s : State} (hs : Inv s) : Inv (bringupBeforeClear s) :=
  ((hs.after .rstAssert).after .rstRelease).after .initSeq

theorem performAll_bringup {s : State} (hs : Inv s) :
    performAll Pseudo.bringup.expand s = .next (stateAfter (.clear true) (bringupBeforeClear s)) := by
  have hasserted := hs.after .rstAssert
  have hreleased := hasserted.after .rstRelease
  rw [Pseudo.expand, performAll_cons _ (hs.completes _), performAll_cons _ (hasserted.completes _)]
  exact performAll_pair (hreleased.completes _) ((inv_bringupBeforeClear hs).completes _)

theorem bringupBeforeClear_trace (s : State) :
    (bringupBeforeClear s).trace =
      s.trace ++ [.rst .asserted, .rst .released] ++ (cmdFrames Config.initSeq).flatMap frameDrives := by
  simp only [bringupBeforeClear, stateAfter_trace, drivesOf, rstDrives, framesSent, List.flatMap_nil, List.nil_append,
    List.append_assoc, List.cons_append]

/-- The reset pulse ends before INITSEQ, whose frames leave the reset line. -/
theorem bringupBeforeClear_rst (s : State) : (bringupBeforeClear s).pins.rst = .released := by
  rw [bringupBeforeClear, stateAfter_pins, drivesOf_eq_frames _ (by decide) (by decide), rst_after_frames,
    stateAfter_pins]
  rfl

theorem bringupBeforeClear_frames {s : State} (hs : Inv s) :
    frames (bringupBeforeClear s).trace = frames s.trace ++ cmdFrames Config.initSeq := by
  have hasserted := hs.after .rstAssert
  rw [bringupBeforeClear, (hasserted.after .rstRelease).frames_after, hasserted.frames_after,
    hs.frames_after]
  simp only [framesSent, List.append_nil]

end Sys2Proof.Machine
end

section
/-! PROOFS. Bringing the display up, and what each operation costs in accesses and drives (70_reset_and_hazards.md R192,
R201). -/

namespace Sys2Proof.Machine

/-- Settles O45: BRINGUP ends with CLEAR and its flush of zeros, from a state with the invariant. -/
theorem bringupLeavesADeterminedState : Obligations.BringupLeavesADeterminedState := by
  intro s hs
  have hinv := inv_bringupBeforeClear hs
  have hdrives (m : Memory) : drivesOf m (.clear true) = (flushFrames Config.pageCmd zeroFb).flatMap frameDrives := rfl
  refine ⟨_, performAll_bringup hs, fun b c _ _ => ?_, ?_,
    ⟨(cmdFrames Config.initSeq ++ flushFrames Config.pageCmd zeroFb).flatMap frameDrives, ?_, ?_⟩, ?_, ?_⟩
  · rw [stateAfter_fb]
    exact fbRead_zeroFb b c
  · rw [stateAfter_pins, hdrives, pins_after_flushFrames, bringupBeforeClear_rst]
    rfl
  · rw [stateAfter_trace, hdrives, bringupBeforeClear_trace, List.append_assoc, List.flatMap_append]
  · rw [flatMap_frameDrives_length, List.length_append, length_cmdFrames, length_flushFrames, ← Nat.add_assoc]
  · rw [hinv.frames_after, bringupBeforeClear_frames hs, ← flushFrames_zeroFb]
    rfl
  · exact sentIsTheFramebufferAfterAFlush _ _ _ hinv (hinv.completes _) (.inr (.inl rfl))

/-- Settles O47: each operation's events are pixel accesses, byte writes, frames and flushes, counted apart. -/
theorem eventCounts : Obligations.EventCounts := by
  rintro m _ rfl
  refine ⟨fun x y on => ?setPixel, fun x y => ?getPixel, ?fillRect, countEvents_clear m, ?clearFlush,
    fun d md => countEvents_frameEvents _, rfl, rfl, ?powerOn, ?powerOff, ?initSeq, ?flush⟩
  case setPixel =>
    rw [events]
    cases h : inRange x y with
    | true => rw [countEvents_pixEvents h, if_pos (inRange_iff.1 h)]
    | false =>
      rw [pixEvents_outOfRange h, if_neg (by simp [← inRange_iff, h])]
      rfl
  case getPixel =>
    rw [events, if_congr (inRange_iff (x := x) (y := y)) rfl rfl]
    split <;> rfl
  case fillRect =>
    rintro x1 y1 x2 y2 on _ rfl
    constructor
    · rw [events, flushIfEvents, List.append_nil, countEvents_fillEvents]
    · rw [events, countEvents_append_flush, countEvents_fillEvents]
      simp
  case clearFlush =>
    rw [events, countEvents_append_flush, countEvents_writes, length_allBytes]
    simp
  case flush => rw [events, countEvents_flushEvents, length_flushFrames]
  case powerOn | powerOff | initSeq => rw [events, countEvents_frameEvents, length_cmdFrames]

end Sys2Proof.Machine
end

section
/-! SUPPORT. The other direction of the encoding (30_encoding.md R90 to R94): the word of a decoded instruction, and the
rows of the opcode map read field by field. -/

namespace Sys2Proof

/-- Fields that decode are those of the instruction's word; the unused ones are zero (30_encoding.md R92, R94). -/
theorem encode_of_decodeFields {op : BitVec 4} {f v m z : Bool} {a b c d : Byte} {i : Instr}
    (h : decodeFields op f v m z a b c d = .ok i) :
    z = false ∧ encode i = .opw (packOpWord op f v m a b c d) ∧ i.wellFormed = true := by
  have hofNat (n : Nat) (hn : op.toNat = n) : op = BitVec.ofNat 4 n := by
    rw [← hn, BitVec.ofNat_toNat, BitVec.setWidth_eq]
  unfold decodeFields at h
  split at h
  case h_12 => cases h
  all_goals
    next hop =>
    obtain ⟨hzero, rfl⟩ := ifUnusedZero_ok_iff.1 h
    simp only [Bool.and_eq_true, Bool.not_eq_true', beq_iff_eq] at hzero
    simp [encode, Instr.wellFormed, coordFits_toNat, hofNat _ hop, hzero]

/-- An operation word that decodes is the word of its instruction (decisions D16, D17). -/
theorem encode_of_decodeOpWord {w : OpWord} {i : Instr} (h : decodeOpWord w = .ok i) :
    encode i = .opw w ∧ i.wellFormed = true := by
  obtain ⟨hz, henc, hwf⟩ := encode_of_decodeFields h
  rw [pack_fields hz] at henc
  exact ⟨henc, hwf⟩

/-- Each of the 512 frame patterns is the pattern of its row (30_encoding.md R82). -/
theorem encode_decodeFrameWord (w : FrameWord) :
    encode (decodeFrameWord w) = .w9 w ∧ (decodeFrameWord w).wellFormed = true := by
  have hw : BitVec.ofBool (w.getLsbD 8) ++ w.extractLsb' 0 8 = w := by
    refine BitVec.eq_of_getLsbD_eq fun i hi => ?_
    rw [BitVec.getLsbD_append]
    by_cases h8 : i < 8
    · simp [h8]
    · obtain rfl : i = 8 := by omega
      simp
  rw [decodeFrameWord]
  cases hmode : w.getLsbD 8 <;> rw [hmode] at hw <;> exact ⟨congrArg HostWord.w9 hw, rfl⟩

section fieldsOfAnd
variable (w w' : OpWord)
@[simp] theorem opField_and : opField (w &&& w') = opField w &&& opField w' := BitVec.extractLsb'_and
@[simp] theorem fieldF_and : fieldF (w &&& w') = (fieldF w && fieldF w') := BitVec.getLsbD_and
@[simp] theorem fieldV_and : fieldV (w &&& w') = (fieldV w && fieldV w') := BitVec.getLsbD_and
@[simp] theorem fieldM_and : fieldM (w &&& w') = (fieldM w && fieldM w') := BitVec.getLsbD_and
@[simp] theorem fieldZ_and : fieldZ (w &&& w') = (fieldZ w && fieldZ w') := BitVec.getLsbD_and
@[simp] theorem fieldA_and : fieldA (w &&& w') = fieldA w &&& fieldA w' := BitVec.extractLsb'_and
@[simp] theorem fieldB_and : fieldB (w &&& w') = fieldB w &&& fieldB w' := BitVec.extractLsb'_and
@[simp] theorem fieldC_and : fieldC (w &&& w') = fieldC w &&& fieldC w' := BitVec.extractLsb'_and
@[simp] theorem fieldD_and : fieldD (w &&& w') = fieldD w &&& fieldD w' := BitVec.extractLsb'_and
end fieldsOfAnd

/-- A word is known by its fields; of `w'` the field Z is known to be zero. -/
theorem eq_iff_fields {w w' : OpWord} (hz : fieldZ w' = false) :
    w = w' ↔ opField w = opField w' ∧ fieldF w = fieldF w' ∧ fieldV w = fieldV w' ∧ fieldM w = fieldM w' ∧
      fieldZ w = fieldZ w' ∧ fieldA w = fieldA w' ∧ fieldB w = fieldB w' ∧ fieldC w = fieldC w' ∧
      fieldD w = fieldD w' := by
  refine ⟨fun h => by simp [h], fun ⟨hop, hf, hv, hm, hz', ha, hb, hc, hd⟩ => ?_⟩
  rw [← pack_fields hz, ← pack_fields (hz'.trans hz), hop, hf, hv, hm, ha, hb, hc, hd]

/-- The selection of a row, "w & mask = match" (30_encoding.md R92), of the fields of a word. -/
def FieldsSelect (op : BitVec 4) (f v m z : Bool) (a b c d : Byte) (row : OpWord × OpWord) : Prop :=
  op &&& opField row.2 = opField row.1 ∧ (f && fieldF row.2) = fieldF row.1 ∧ (v && fieldV row.2) = fieldV row.1 ∧
  (m && fieldM row.2) = fieldM row.1 ∧ (z && fieldZ row.2) = fieldZ row.1 ∧ a &&& fieldA row.2 = fieldA row.1 ∧
  b &&& fieldB row.2 = fieldB row.1 ∧ c &&& fieldC row.2 = fieldC row.1 ∧ d &&& fieldD row.2 = fieldD row.1

/-- In every row the match has Z zero and the mask covers all of `op`. -/
theorem opRows_spec : ∀ row ∈ opRows, fieldZ row.1 = false ∧ opField row.2 = BitVec.allOnes 4 := by
  simp [opRows, fieldZ, opField, BitVec.allOnes]

theorem selectsRow_iff_fieldsSelect {row : OpWord × OpWord} (hrow : row ∈ opRows) (w : OpWord) :
    selectsRow w row = true ↔
      FieldsSelect (opField w) (fieldF w) (fieldV w) (fieldM w) (fieldZ w) (fieldA w) (fieldB w) (fieldC w) (fieldD w)
        row := by
  rw [selectsRow, beq_iff_eq, eq_iff_fields (opRows_spec row hrow).1]
  simp only [opField_and, fieldF_and, fieldV_and, fieldM_and, fieldZ_and, fieldA_and, fieldB_and, fieldC_and,
    fieldD_and, FieldsSelect]

/-- A selected row has the word's `op`, which its mask covers. -/
theorem opField_of_selectsRow {w : OpWord} {row : OpWord × OpWord} (hrow : row ∈ opRows)
    (h : selectsRow w row = true) : opField row.1 = opField w := by
  rw [← (beq_iff_eq.1 h : w &&& row.2 = row.1), opField_and, (opRows_spec row hrow).2, BitVec.and_allOnes]

/-- The rows differ in `op`. -/
theorem nodup_opField_opRows : (opRows.map fun row => opField row.1).Nodup := by
  decide

/-- The rows of the opcode map, field by field: `op`, and the unused fields zero (30_encoding.md R92). -/
theorem exists_fieldsSelect_iff (op : BitVec 4) (f v m z : Bool) (a b c d : Byte) :
    (∃ row ∈ opRows, FieldsSelect op f v m z a b c d row) ↔
      op.toNat = 0x1 ∧ f = false ∧ m = false ∧ z = false ∧ c = 0 ∧ d = 0 ∨
      op.toNat = 0x2 ∧ f = false ∧ v = false ∧ m = false ∧ z = false ∧ c = 0 ∧ d = 0 ∨
      op.toNat = 0x3 ∧ m = false ∧ z = false ∨
      op.toNat = 0x4 ∧ v = false ∧ m = false ∧ z = false ∧ a = 0 ∧ b = 0 ∧ c = 0 ∧ d = 0 ∨
      op.toNat = 0x5 ∧ f = false ∧ v = false ∧ z = false ∧ b = 0 ∧ c = 0 ∧ d = 0 ∨
      (op.toNat = 0x6 ∨ op.toNat = 0x7 ∨ op.toNat = 0x8 ∨ op.toNat = 0x9 ∨ op.toNat = 0xA ∨ op.toNat = 0xB) ∧
        f = false ∧ v = false ∧ m = false ∧ z = false ∧ a = 0 ∧ b = 0 ∧ c = 0 ∧ d = 0 := by
  have hop (n : BitVec 4) : op &&& 15#4 = n ↔ op.toNat = n.toNat := by
    rw [show 15#4 = BitVec.allOnes 4 from rfl, BitVec.and_allOnes, BitVec.toNat_eq]
  have hbyte (x : Byte) : x &&& 255#8 = x := BitVec.and_allOnes
  simp only [or_and_right]
  simp [opRows, FieldsSelect, opField, fieldF, fieldV, fieldM, fieldZ, fieldA, fieldB, fieldC, fieldD, hop, hbyte]

/-- Fields decode exactly when they select a row of the opcode map (30_encoding.md R92, R94). -/
theorem exists_decodeFields_iff (op : BitVec 4) (f v m z : Bool) (a b c d : Byte) :
    (∃ i, decodeFields op f v m z a b c d = .ok i) ↔ ∃ row ∈ opRows, FieldsSelect op f v m z a b c d row := by
  rw [exists_fieldsSelect_iff]
  unfold decodeFields
  split <;> simp_all [ifUnusedZero_ok_iff, and_assoc]

end Sys2Proof
end

section
/-! PROOFS. The encoding and the decoder are inverse to each other, and the decoder is the opcode map's
(30_encoding.md R82, R90 to R94). -/

namespace Sys2Proof

/-- Settles O49: each field of the packed word is read back. -/
theorem decodeAfterEncode : Obligations.DecodeAfterEncode := fun _ => decode_encode

/-- Settles O50: a word is packed from the fields it is decoded from, in both formats. -/
theorem encodeAfterDecode : Obligations.EncodeAfterDecode := by
  intro w i h
  cases w with
  | opw w => exact encode_of_decodeOpWord h
  | w9 w =>
    obtain rfl : decodeFrameWord w = i := Except.ok.inj h
    exact encode_decodeFrameWord w

/-- Settles O51: the word's fields select a row where they decode, and a selected row has the word's `op`. -/
theorem wordDecodesExactlyWhenItSelectsARow : Obligations.WordDecodesExactlyWhenItSelectsARow := by
  refine ⟨fun w => ?_, fun w j k r q hr hq hwr hwq => ?_⟩
  · rw [decodeOpWord, exists_decodeFields_iff]
    exact exists_congr fun row => and_congr_right fun hrow => (selectsRow_iff_fieldsSelect hrow w).symm
  · have hop : opField r.1 = opField q.1 :=
      (opField_of_selectsRow (List.mem_of_getElem? hr) hwr).trans
        (opField_of_selectsRow (List.mem_of_getElem? hq) hwq).symm
    obtain ⟨hj, -⟩ := List.getElem?_eq_some_iff.1 hr
    refine (List.getElem?_inj (by simpa using hj) nodup_opField_opRows).1 ?_
    rw [List.getElem?_map, List.getElem?_map, hr, hq, Option.map_some, Option.map_some, hop]

end Sys2Proof
end

section
/-! SUPPORT. Frames and operations: command sequences, the WRITEBYTE of each frame, the place of a byte in a flush
(42_device_sequences.md; 95_test_vectors.md 2.4), and fills of rectangles byte by byte (40_framebuffer_ops.md R112). -/

namespace Sys2Proof.Machine

/-! ### Fills of rectangles -/

/-- A fill leaves every byte that holds no pixel of its list. -/
theorem fbRead_fillPixels_of_not_mem {m : Memory} (hm : m.wf) (on : Bool) {ps : List (Nat × Nat)} {b c : Nat}
    (hb : b ≤ 7) (hc : c ≤ 127) (h : ∀ y, y ≤ 63 → band y = b → (c, y) ∉ ps) :
    fbRead (fillPixels on ps m) b c = fbRead m b c := by
  refine BitVec.eq_of_getLsbD_eq fun i hi => ?_
  have hi7 : i ≤ 7 := Nat.le_of_lt_succ hi
  rw [fbRead_getLsbD hb hi7, fbRead_getLsbD hb hi7, pix_fillPixels hm on ps (inRange_iff.2 ⟨hc, rowOf_le⟩),
    if_neg (h _ rowOf_le (band_rowOf hb))]

/-- A rectangle with a lower bound above an upper one has no pixel (40_framebuffer_ops.md R112(b)). -/
theorem rectPixels_eq_nil {x1 y1 x2 y2 : Nat} (h : x2 < x1 ∨ y2 < y1) : rectPixels x1 y1 x2 y2 = [] := by
  refine List.eq_nil_iff_forall_not_mem.2 fun p hp => ?_
  obtain ⟨⟨hx1, hx2⟩, hy1, hy2⟩ := mem_rectPixels.1 hp
  omega

/-! ### The drives of frames -/

/-- The drives of a command sequence are those of its bytes' command frames. -/
theorem flatMap_frameDrives_cmdFrames (cs : List Byte) :
    (cmdFrames cs).flatMap frameDrives = cs.flatMap fun c => frameDrives (.cmd, c) :=
  List.flatMap_map ..

/-- The lines a command sequence leaves: as its last byte's frame does, or, if it is empty, as they were
(42_device_sequences.md R150 to R152). -/
def linesAfterCmds (p : Pins) (cs : List Byte) : Pins :=
  match cs.getLast? with
  | none => p
  | some c => { sck := .low, sda := c.getLsbD 0, cs := .released, dc := .cmd, rst := p.rst }

theorem linesAfterCmds_concat (p : Pins) (cs : List Byte) (c : Byte) :
    linesAfterCmds p (cs ++ [c]) =
      { sck := .low, sda := c.getLsbD 0, cs := .released, dc := .cmd, rst := p.rst } := by
  simp [linesAfterCmds]

theorem pins_after_cmdFrames (p : Pins) (cs : List Byte) :
    ((cmdFrames cs).flatMap frameDrives).foldl Pins.set p = linesAfterCmds p cs := by
  obtain rfl | ⟨cs, c, rfl⟩ := List.eq_nil_or_concat' cs
  · rfl
  · rw [linesAfterCmds_concat, cmdFrames, List.map_append, List.map_singleton, pins_after_frames]

/-- All that sending frames from idle lines does (41_serializer_ops.md R130). -/
theorem sendFrames_idle_eq {s : State} (h : s.pins.idle = true) (fs : List Frame) :
    sendFrames fs s =
      .next { s with
        pins := (fs.flatMap frameDrives).foldl Pins.set s.pins
        trace := s.trace ++ fs.flatMap frameDrives } := by
  rw [sendFrames_idle h, State.driveAll_eq]

/-- The drives of a flush, band after band. -/
theorem flatMap_frameDrives_flushFrames (page : Nat → ByteList1) (m : Memory) :
    (flushFrames page m).flatMap frameDrives = (List.range 8).flatMap fun b =>
      (page b).toList.flatMap (fun c => frameDrives (.cmd, c)) ++
        (List.range 128).flatMap fun c => frameDrives (.data, fbRead m b c) := by
  rw [flushFrames, List.flatMap_assoc, Config.bands]
  refine List.flatMap_congr fun b _ => ?_
  rw [bandFrames, List.flatMap_append, flatMap_frameDrives_cmdFrames, List.flatMap_map, Config.width]

/-! ### The WRITEBYTE of each frame -/

/-- The WRITEBYTE that sends a frame (30_encoding.md R81, R83). -/
def writeByteOf (f : Frame) : Instr := .writeByte f.2 f.1

/-- Sending frames is performing their WRITEBYTEs one after the other, from every state (30_encoding.md R83). -/
theorem performAll_writeByteOf (fs : List Frame) (s : State) : performAll (fs.map writeByteOf) s = sendFrames fs s := by
  induction fs generalizing s with
  | nil => rw [sendFrames_nil]; rfl
  | cons f fs ih =>
    rw [List.map_cons, performAll, sendFrames_cons, writeByteOf, exec_writeByte]
    cases sendFrames [f] s with
    | next t => exact ih t
    | fault r => rfl
    | refused r => rfl

/-- SENDCMD expands to the WRITEBYTEs of its command frames (30_encoding.md R97). -/
theorem expand_sendCmd (cs : List Byte) : (Pseudo.sendCmd cs).expand = (cmdFrames cs).map writeByteOf := by
  rw [cmdFrames, List.map_map]; rfl

/-- The WRITEBYTEs of a flush, as the pseudocode of FLUSH lists them (42_device_sequences.md R153). -/
theorem map_writeByteOf_flushFrames (page : Nat → ByteList1) (m : Memory) :
    (flushFrames page m).map writeByteOf = (List.range 8).flatMap fun b =>
      (Pseudo.sendCmd (page b).toList).expand ++ (List.range 128).map fun c => .writeByte (fbRead m b c) .data := by
  rw [flushFrames, List.map_flatMap, Config.bands]
  refine List.flatMap_congr fun b _ => ?_
  rw [bandFrames, List.map_append, List.map_map, expand_sendCmd, Config.width]
  rfl

/-! ### The place of a byte in a flush -/

/-- In parts of one length `n` put end to end, member `j` of part `k` stands at `n * k + j`. -/
theorem getElem?_flatMap_of_length {α β : Type} {f : α → List β} {n : Nat} {l : List α}
    (hf : ∀ a ∈ l, (f a).length = n) {k j : Nat} {a : α} (hk : l[k]? = some a) (hj : j < n) :
    (l.flatMap f)[n * k + j]? = (f a)[j]? := by
  induction l generalizing k with
  | nil => simp at hk
  | cons a' l ih =>
    obtain ⟨ha', hl⟩ := List.forall_mem_cons.1 hf
    rw [List.flatMap_cons]
    cases k with
    | zero =>
      obtain rfl : a' = a := by simpa using hk
      rw [List.getElem?_append_left (by omega), Nat.mul_zero, Nat.zero_add]
    | succ k =>
      rw [List.getElem?_append_right (by rw [ha', Nat.mul_succ]; omega), ha', ← ih hl (by simpa using hk)]
      congr 1
      rw [Nat.mul_succ]; omega

theorem length_bandFrames (page : Nat → ByteList1) (m : Memory) (b : Nat) :
    (bandFrames page m b).length = (page b).toList.length + 128 := by
  simp [bandFrames, length_cmdFrames, Config.width]

/-- In a band's frames the byte of column `c` comes after the command bytes and `c` bytes (42_device_sequences.md
R153). -/
theorem getElem?_bandFrames (page : Nat → ByteList1) (m : Memory) (b : Nat) {c : Nat} (hc : c ≤ 127) :
    (bandFrames page m b)[(page b).toList.length + c]? = some (.data, fbRead m b c) := by
  rw [bandFrames, ← length_cmdFrames, List.getElem?_append_right (Nat.le_add_right ..), Nat.add_sub_cancel_left,
    List.getElem?_map, Config.width, List.getElem?_range (Nat.lt_succ_of_le hc), Option.map_some]

end Sys2Proof.Machine
end

section
/-! PROOFS. The framebuffer operations, each with all that it leaves unchanged (40_framebuffer_ops.md R111 to R113). -/

namespace Sys2Proof.Machine

/-- Settles O10: the state differs in a fill of the rectangle's pixels. -/
theorem fillRectFillsTheClosedRectangle : Obligations.FillRectFillsTheClosedRectangle := by
  intro s x1 y1 x2 y2 on hs
  refine ⟨_, exec_fillRect_noFlush x1 y1 x2 y2 on s, fun x y hx hy => ?_, fun b c hb hc hout => ?_,
    wf_fillPixels hs on _, rfl, rfl, rfl, rfl, rfl⟩
  · rw [State.setFb_fb, pix_fillPixels hs on _ (inRange_iff.2 ⟨hx, hy⟩), if_congr mem_rectPixels rfl rfl]
  · exact fbRead_fillPixels_of_not_mem hs on hb hc fun y hy hband hmem => hout y hy hband (mem_rectPixels.1 hmem)

/-- Settles O6: the bit is the pixel's. -/
theorem getPixelReturnsTheStoredBit : Obligations.GetPixelReturnsTheStoredBit :=
  fun s _ _ hx hy => exec_getPixel_inRange (inRange_iff.2 ⟨hx, hy⟩) s

/-- Settles O12: a fill of no pixel. -/
theorem emptyRectangleStillFlushes : Obligations.EmptyRectangleStillFlushes := by
  intro s x1 y1 x2 y2 on h
  rw [exec_fillRect, exec_fillRect, rectPixels_eq_nil h, fillPixels_nil, State.setFb_self]
  exact ⟨flushIf_false s, (flushIf_true s).trans (exec_flush s).symm⟩

/-- Settles O13: the framebuffer left lists no byte. -/
theorem clearZeroesEveryByte : Obligations.ClearZeroesEveryByte :=
  fun s _ => ⟨_, exec_clear_noFlush s, fun b c _ _ => fbRead_zeroFb b c, fun x y _ _ => pix_zeroFb x y, wf_zeroFb,
    rfl, rfl, rfl, rfl, rfl⟩

/-- Settles O15: FLUSH is performed on the state that the writes leave. -/
theorem flushOperandFlushesAfterTheWrites : Obligations.FlushOperandFlushesAfterTheWrites := by
  refine fun s => ⟨fun x1 y1 x2 y2 on => ⟨?_, fun h => ⟨_, exec_of_idle h _⟩⟩, ?_, fun h => ⟨_, exec_of_idle h _⟩⟩
  · rw [performAll_cons s (exec_fillRect_noFlush x1 y1 x2 y2 on s), performAll_singleton]; rfl
  · rw [performAll_cons s (exec_clear_noFlush s), performAll_singleton]; rfl

end Sys2Proof.Machine
end

section
/-! PROOFS. The serializer's operations and when they are refused (41_serializer_ops.md R130 to R132). -/

namespace Sys2Proof.Machine

/-- Settles O19: the one condition under which an operation does not complete. -/
theorem refusedExactlyWhenLinesAreBusy : Obligations.RefusedExactlyWhenLinesAreBusy := by
  intro i s r
  rw [exec_eq, ← Pins.idle_iff, ← not_or]
  split
  · next h => exact ⟨nofun, fun hr => absurd h hr.2⟩
  · next h => exact ⟨fun hr => ⟨(Host.Outcome.refused.inj hr).symm, h⟩, fun hr => congrArg _ hr.1.symm⟩

/-- Settles O17: the drives of one frame, and the lines they leave. -/
theorem writeByteDrivesItsFrame : Obligations.WriteByteDrivesItsFrame := by
  intro s d m hsck hcs
  rw [exec_writeByte, sendFrames_idle_eq (Pins.idle_iff.2 ⟨hsck, hcs⟩), List.flatMap_singleton,
    foldl_set_frameDrives]
  rfl

/-- Settles O18: a frame row has the meaning of the WRITEBYTE of its mode. -/
theorem frameRowsPutOneFrameOnTheWire : Obligations.FrameRowsPutOneFrameOnTheWire := by
  intro s d hsck hcs
  have hsend (f : Frame) : sendFrames [f] s = .next (s.driveAll (frameDrives f)) := by
    rw [sendFrames_idle (Pins.idle_iff.2 ⟨hsck, hcs⟩), List.flatMap_singleton]
  exact ⟨⟨_, hsend _, hsend _, State.driveAll_trace .., State.driveAll_fb ..⟩,
    ⟨_, hsend _, hsend _, State.driveAll_trace .., State.driveAll_fb ..⟩⟩

/-- Settles O20: each is one drive. -/
theorem resetLineOperationsDriveRst : Obligations.ResetLineOperationsDriveRst :=
  fun s => ⟨exec_rstAssert s, exec_rstRelease s⟩

/-- Settles O21: the state answered has the reset line as driven. -/
theorem resetLineIsActiveLow : Obligations.ResetLineIsActiveLow := by
  refine fun s t => ⟨fun h => ?_, fun h => ?_⟩
  · obtain rfl := Host.Outcome.next.inj ((exec_rstAssert s).symm.trans h)
    rfl
  · obtain rfl := Host.Outcome.next.inj ((exec_rstRelease s).symm.trans h)
    rfl

end Sys2Proof.Machine
end

section
/-! PROOFS. The device sequences: their frames in order, as WRITEBYTEs and by number (42_device_sequences.md R150 to
R153; 95_test_vectors.md 2.4). -/

namespace Sys2Proof.Machine

/-- Settles O28: each of the three sends the command frames of its list. -/
theorem commandSequencesSendTheirLists : Obligations.CommandSequencesSendTheirLists := by
  intro p hp s hsck hcs
  have hexec : exec p.1 s = sendFrames (cmdFrames p.2) s := by
    simp only [List.mem_cons, List.not_mem_nil, or_false] at hp
    obtain rfl | rfl | rfl := hp
    · exact exec_powerOn s
    · exact exec_powerOff s
    · exact exec_initSeq s
  rw [hexec, sendFrames_idle_eq (Pins.idle_iff.2 ⟨hsck, hcs⟩), pins_after_cmdFrames, flatMap_frameDrives_cmdFrames]
  rfl

/-- Settles O29: frames sent are WRITEBYTEs performed. -/
theorem sequencesAreWriteBytesPerformed : Obligations.SequencesAreWriteBytesPerformed := by
  intro s
  rw [← map_writeByteOf_flushFrames]
  simp only [expand_sendCmd, performAll_writeByteOf]
  exact ⟨exec_powerOn s, exec_powerOff s, exec_initSeq s, exec_flush s⟩

/-- Settles O30: FLUSH drives its frames and no other line. -/
theorem flushSendsEveryBand : Obligations.FlushSendsEveryBand := by
  intro s hsck hcs
  refine ⟨_, sendFrames_idle (Pins.idle_iff.2 ⟨hsck, hcs⟩) _, ?_, ?_, ?_, State.driveAll_fb ..,
    State.driveAll_issued .., State.driveAll_returned .., State.driveAll_draws ..⟩
  · rw [State.driveAll_trace, flatMap_frameDrives_flushFrames]
  · rw [State.driveAll_trace, List.length_append, flatMap_frameDrives_length, length_flushFrames]
  · rw [State.driveAll_pins, pins_after_flushFrames]

/-- Settles O31: eight bands of L + 128 frames. -/
theorem flushFramePositions : Obligations.FlushFramePositions := by
  refine ⟨fun m => rfl, fun page m L b c hL hb hc => ?_⟩
  have hlen : ∀ k ∈ List.range Config.bands, (bandFrames page m k).length = L + 128 := fun k hk => by
    rw [length_bandFrames, hL k (Nat.le_of_lt_succ (List.mem_range.1 hk))]
  have hband : (List.range Config.bands)[b]? = some b := List.getElem?_range (Nat.lt_succ_of_le hb)
  rw [flushFrames, Nat.add_assoc, getElem?_flatMap_of_length hlen hband (by omega), ← hL b hb,
    getElem?_bandFrames page m b hc]

end Sys2Proof.Machine
end

section
/-! PROOFS. Reserved words, and the reset state (30_encoding.md R94; 10_state.md R33). -/

namespace Sys2Proof.Machine

/-- Settles O40: the step takes that word. -/
theorem reservedWordsAreRefused : Obligations.ReservedWordsAreRefused := by
  intro s w ws why hs hd
  rw [step_cons hs, hd]

/-- Settles O42: nothing has been driven since reset. -/
theorem resetHasTheInvariant : Obligations.ResetHasTheInvariant := inv_reset

/-- Settles O44: the free bytes are read back. -/
theorem resetState : Obligations.ResetState :=
  ⟨rfl, rfl, rfl, rfl, fun _ _ hb hc => read_resetFb (linear_lt hb hc)⟩

end Sys2Proof.Machine
end
